-- ==== Sys2Proof/Word.lean ====
section
/-! DEFINITION. The word types of GLYPHRAST (R10): every request byte, operand, ROM byte, command byte and data byte
is 8 bits; the glyph ROM address is 9 bits; the register read address is 3 bits (R23). -/

namespace Sys2Proof

/-- A request byte, operand, ROM byte, command byte or data byte (R10). -/
abbrev Byte := BitVec 8

/-- A glyph ROM address (R10, R48). -/
abbrev RomAddr := BitVec 9

/-- `RD_ADDR` of the register read port (R23, R48). -/
abbrev RegAddr := BitVec 3

end Sys2Proof
end

