-- ==== Sys2Proof/Syntax.lean ====
section
/-! DEFINITION. The requests of the opcode table (R69, R70), one constructor each. -/

namespace Sys2Proof

/-- A request: its mnemonic and its operand bytes in wire order (R69, R70, R72). -/
inductive Instr where
  /-- 0x00, format F0 (R133). -/
  | nop
  /-- 0x01, format F0 (R100). -/
  | init
  /-- 0x02, format F1 (R96). -/
  | cmd (imm8 : Byte)
  /-- 0x03, format F1 (R97). -/
  | data (imm8 : Byte)
  /-- 0x04, format F2 (R108). -/
  | cursor (row x : Byte)
  /-- 0x05, format F0 (R110). -/
  | clear
  /-- 0x06, format F3 (R123). -/
  | char (row col ch : Byte)
  /-- 0x07, format F4 (R124): `text` is the `len` bytes after byte 3. -/
  | line (row col len : Byte) (text : List Byte)
  /-- 0x08, format F1 (R134). -/
  | wrctrl (imm8 : Byte)
  /-- 0x09..0xFF, format F0 (R76, R142): all the table's rows `reserved`; `op` is the opcode byte. -/
  | reserved (op : Byte)
  deriving DecidableEq, Repr

end Sys2Proof
end

