-- ==== Sys2Proof/WellFormed.lean ====
section
/-! DEFINITION. Which terms of `Instr` stand for a request. Every operand byte takes all 256 values (R73, R77), so there
are two checks only: LINE carries exactly `len` text bytes (R69), and a reserved opcode is 0x09 or above (R76). -/

namespace Sys2Proof

/-- LINE carries exactly `len` text bytes (R69, format F4). -/
def lineTextFits (len : Byte) (text : List Byte) : Bool := text.length == len.toNat

/-- The opcode byte is one of 0x09..0xFF (R76). -/
def isReservedOpcode (op : Byte) : Bool := decide (9 ≤ op.toNat)

/-- The term is a request of the spec (R69, R70, R76). -/
def Instr.wf : Instr → Bool
  | .nop => true
  | .init => true
  | .cmd _ => true
  | .data _ => true
  | .cursor _ _ => true
  | .clear => true
  | .char _ _ _ => true
  | .line _ _ len text => lineTextFits len text
  | .wrctrl _ => true
  | .reserved op => isReservedOpcode op

end Sys2Proof
end

