-- ==== Sys2Proof/Decode.lean ====
section
/-! DEFINITION. Request length, decoder and encoder (R69 to R78). The decoder is total: a byte list is a request and the
bytes after it, or it is rejected by name because bytes are missing. -/

namespace Sys2Proof

/-- Why a byte list is no request: the first byte, or bytes of the request it begins, have not come yet (R71). -/
inductive DecodeError where
  /-- There is no opcode byte. -/
  | noOpcode
  /-- The opcode's operand bytes are not all there. -/
  | missingOperands (opcode : Byte)
  deriving DecidableEq, Repr

/-- The opcode byte of a request (R70). -/
def Instr.opcode : Instr → Byte
  | .nop => 0x00
  | .init => 0x01
  | .cmd _ => 0x02
  | .data _ => 0x03
  | .cursor _ _ => 0x04
  | .clear => 0x05
  | .char _ _ _ => 0x06
  | .line _ _ _ _ => 0x07
  | .wrctrl _ => 0x08
  | .reserved op => op

/-- `length(RQBUF)` of R71; `none` while the accepted bytes do not fix it yet. -/
def requestLength : List Byte → Option Nat
  | [] => none
  | op :: rest =>
    match op.toNat with
    | 0 | 1 | 5 => some 1
    | 2 | 3 | 8 => some 2
    | 4 => some 3
    | 6 => some 4
    | 7 =>
      match rest with
      | _ :: _ :: len :: _ => some (4 + len.toNat)
      | _ => none
    | _ => some 1

/-- A request is complete when the number of accepted bytes equals its length (R71). -/
def requestComplete (rq : List Byte) : Bool := requestLength rq == some rq.length

/-- The operands of a request from the bytes after its opcode, and the bytes after the request (R69, R70, R72). -/
def decodeOperands (op : Byte) (rest : List Byte) : Option (Instr × List Byte) :=
  match op.toNat with
  | 0 => some (.nop, rest)
  | 1 => some (.init, rest)
  | 2 => match rest with
    | imm8 :: rest => some (.cmd imm8, rest)
    | _ => none
  | 3 => match rest with
    | imm8 :: rest => some (.data imm8, rest)
    | _ => none
  | 4 => match rest with
    | row :: x :: rest => some (.cursor row x, rest)
    | _ => none
  | 5 => some (.clear, rest)
  | 6 => match rest with
    | row :: col :: ch :: rest => some (.char row col ch, rest)
    | _ => none
  | 7 => match rest with
    | row :: col :: len :: rest =>
      if len.toNat ≤ rest.length then
        some (.line row col len (rest.take len.toNat), rest.drop len.toNat)
      else none
    | _ => none
  | 8 => match rest with
    | imm8 :: rest => some (.wrctrl imm8, rest)
    | _ => none
  | _ => some (.reserved op, rest)

/-- The decoder: the request a byte stream begins with, and the bytes after it (R70, R71, R76). -/
def decode : List Byte → Except DecodeError (Instr × List Byte)
  | [] => .error .noOpcode
  | op :: rest =>
    match decodeOperands op rest with
    | some r => .ok r
    | none => .error (.missingOperands op)

/-- The bytes of a request (R69, R70). -/
def encode : Instr → List Byte
  | .nop => [0x00]
  | .init => [0x01]
  | .cmd imm8 => [0x02, imm8]
  | .data imm8 => [0x03, imm8]
  | .cursor row x => [0x04, row, x]
  | .clear => [0x05]
  | .char row col ch => [0x06, row, col, ch]
  | .line row col len text => [0x07, row, col, len] ++ text
  | .wrctrl imm8 => [0x08, imm8]
  | .reserved op => [op]

/-- The length in bytes of the longest request, a LINE of 255 text bytes (R40, R71). -/
def longestRequest : Nat := 259

/-- The byte stream of a table word: byte k is bits 8k+7..8k, the bits above `nbits` are 0, up to the longest
request. -/
def tableWordBytes (nbits w : Nat) : List Byte :=
  (List.range longestRequest).map fun k => BitVec.ofNat 8 ((w % 2 ^ nbits) >>> (8 * k))

/-- The request the decoder reads from a table word. -/
def decodeTableWord (nbits w : Nat) : Option Instr :=
  match decode (tableWordBytes nbits w) with
  | .ok (i, _) => some i
  | .error _ => none

/-- The bytes of the one request a table word holds. -/
def tableWordRequest (nbits w : Nat) : List Byte :=
  match requestLength (tableWordBytes nbits w) with
  | some n => (tableWordBytes nbits w).take n
  | none => []

end Sys2Proof
end

