-- ==== Sys2Proof/Config.lean ====
section
/-! DEFINITION. What the spec leaves open: the OPEN parameters of R8 and the free values of R158 and R166. Each is a
constant without a body, so nothing can be proved about its value. -/

namespace Sys2Proof.Config

/-- `GLYPH_ROM` (R8, R42, R52, D30): 285 bytes whose contents the spec does not give (log 4). -/
opaque glyphRom : Fin 285 → Byte

/-- `INIT_SEQ` (R102, D25): the command bytes of INIT, in order (log 5). -/
opaque initSeq : List Byte

/-- How far `RST_HOLD` is above its bound of 20 ms, in microseconds (R101, D26, log 6). -/
opaque rstHoldExcess : Nat

/-- `CURROW` as a read while BUSY may find it (R166, D31): the n-th draw (log 11). -/
opaque busyCurRow : Nat → BitVec 3

/-- `CURCOL` as a read while BUSY may find it (R166, D31): the n-th draw (log 11). -/
opaque busyCurCol : Nat → BitVec 7

/-- `STATUS.CUR_VALID` as a read while BUSY may find it (R166, D31): the n-th draw (log 11). -/
opaque busyCurValid : Nat → Bool

/-- `STATUS.MODE` as a read while BUSY may find it (R166, D31): the n-th draw (log 11). -/
opaque busyMode : Nat → Bool

/-- How many events of the request in execution are out before block reset abandons it (R158): the n-th draw
(log 12). -/
opaque resetCut : Nat → Nat

end Sys2Proof.Config
end

