-- ==== Sys2Proof/Machine/Params.lean ====
section
/-! DEFINITION. The parameters of R8 that have a value: the source's literals (D42) and the spec's defaults. -/

namespace Sys2Proof.Machine

/-- `WIDTH` (R8): pixel columns 0..83. -/
def width : Nat := 84

/-- `ROWS` (R8): rows of 8 pixels, 0..5. -/
def rows : Nat := 6

/-- `ROW_PIXELS` (R8). -/
def rowPixels : Nat := 8

/-- `SURFACE_BYTES` (R8, R9). -/
def surfaceBytes : Nat := width * rows

/-- `FIRST_CHAR` (R8). -/
def firstChar : Byte := 0x20

/-- `LAST_CHAR` (R8). -/
def lastChar : Byte := 0x7E

/-- `GAP_CHAR` (R8). -/
def gapChar : Byte := 0x40

/-- `FALLBACK_CHAR`, '*' (R8). UNVERIFIED: the ASCII code, from the spec's general knowledge (D38, log 9). -/
def fallbackChar : Byte := 0x2A

/-- `GLYPH_COLS` (R8): bytes per glyph. -/
def glyphCols : Nat := 3

/-- `CHAR_PITCH` (R8): 3 glyph columns and 1 blank. -/
def charPitch : Nat := 4

/-- `BLANK_BYTE` (R8, R119, D28). -/
def blankByte : Byte := 0x00

/-- `CLEAR_BYTE` (R8). -/
def clearByte : Byte := 0x00

/-- `DC_CMD_LEVEL` (R8, D8). UNVERIFIED: the spec's value from general knowledge (log 8). -/
def dcCmdLevel : Bool := false

/-- `CMD_SET_Y(r)` (R8, R107, D21). UNVERIFIED: the spec's default from general knowledge (log 7). -/
def cmdSetY (r : Byte) : Byte := 0x40 ||| r

/-- `CMD_SET_X(x)` (R8, R107, D21). UNVERIFIED: the spec's default from general knowledge (log 7). -/
def cmdSetX (x : Byte) : Byte := 0x80 ||| x

/-- `CURSOR_ORDER` (R8, R107, D22): the bytes of the cursor pair in the order sent, row first (log 7). -/
def cursorPair (r x : Byte) : List Byte := [cmdSetY r, cmdSetX x]

/-- `LINE_MAX` (R8, D12): the largest LEN operand. -/
def lineMax : Nat := 255

/-- `RST_HOLD` in microseconds: at least 20 ms, open above (R101, R163, log 6). -/
def rstHold : Nat := 20000 + Config.rstHoldExcess

/-- The size of `GLYPH_ROM` in bytes (R9). -/
def romBytes : Nat := (lastChar.toNat - firstChar.toNat + 1) * glyphCols

end Sys2Proof.Machine
end

