-- ==== Sys2Proof/Machine/Operands.lean ====
section
/-! DEFINITION. What the operand bytes stand for: the column unit (R122), the character's ROM address (R113 to R115), the
bits of the WRCTRL operand (R75). Every other operand is its whole byte (R72). -/

namespace Sys2Proof.Machine

/-- The pixel column of a `col` operand under `CTRL.CIDX`, without wrap (R122, R130). -/
def pixelColumn (cidx : Bool) (col : Byte) : Nat :=
  if cidx then col.toNat * charPitch else col.toNat

/-- The character code is drawable (R113). -/
def drawable (c : Byte) : Bool :=
  decide (firstChar.toNat ≤ c.toNat) && decide (c.toNat ≤ lastChar.toNat) && !(c == gapChar)

/-- `subst(c)` (R114). -/
def subst (c : Byte) : Byte := if drawable c then c else fallbackChar

/-- `glyph_addr(c)`, 9 bits (R115). -/
def glyphAddr (c : Byte) : RomAddr := BitVec.ofNat 9 (((subst c).toNat - firstChar.toNat) * glyphCols)

/-- `CTRL.CIDX` as the WRCTRL operand gives it: bit 0; bits 7:1 are ignored (R75, R134). -/
def ctrlOperandCidx (imm8 : Byte) : Bool := imm8.getLsbD 0

end Sys2Proof.Machine
end

