-- ==== Sys2Proof/Machine/State.lean ====
section
/-! DEFINITION. The state of the block (10_state.md), the host's actions still to come, the trace, and the reset state
(R46). -/

namespace Sys2Proof.Machine

/-- The four output pins (R21). -/
inductive Pin where
  | sclk
  | sdin
  | dc
  | rst
  deriving DecidableEq, Repr

/-- An event of the trace (R13): `Set(pin, level)`, or `Hold(d)` with `d` in microseconds (log 6). -/
inductive Event where
  | set (pin : Pin) (level : Bool)
  | hold (duration : Nat)
  deriving DecidableEq, Repr

/-- The output registers of the pins (R21, R47). -/
structure Pins where
  sclk : Bool
  sdin : Bool
  dc   : Bool
  rst  : Bool
  deriving DecidableEq, Repr

/-- The cells of `STATUS` (R28, R47); `MODE` is `pins.dc` and has no cell (R33). -/
structure Status where
  busy       : Bool
  initDone   : Bool
  curValid   : Bool
  errPreinit : Bool
  errReinit  : Bool
  errBadop   : Bool
  deriving DecidableEq, Repr

/-- The rasterizer's working state while a CHAR or LINE request executes (R41): `PX`, the index of the current text
byte, and the column index 0..3 within the glyph. -/
structure Raster where
  px      : Nat
  textIdx : Nat
  colIdx  : Nat
  deriving DecidableEq, Repr

/-- What the host does next (R17, R22 to R24). -/
inductive HostAction where
  /-- `REQ_BYTE = b`, `REQ_VALID = 1`, held until accepted (R22, R160). -/
  | send (b : Byte)
  /-- A read of the register port at `RD_ADDR = a` (R23). -/
  | read (a : RegAddr)
  /-- Wait until `REQ_READY = 1` (R60, R160). -/
  | awaitReady
  /-- Drive the block reset input `RESET_N` to a level (R24). -/
  | driveResetN (level : Bool)
  deriving DecidableEq, Repr

/-- The state of the machine (R47, with the internal state of R39 and R41, the level of `RESET_N`, and the model's own
fields `host`, `lastRead`, `trace`, `earlier` and `draws`: log 14). -/
structure State where
  pins     : Pins
  status   : Status
  /-- `CTRL.CIDX` (R34). -/
  cidx     : Bool
  /-- `CURROW[2:0]` (R35). -/
  curRow   : BitVec 3
  /-- `CURCOL[6:0]` (R36). -/
  curCol   : BitVec 7
  /-- `ERRCODE` (R37). -/
  errcode  : Byte
  /-- `SHIFT` (R39). -/
  shift    : Byte
  /-- `BITCNT`, 0..8 (R39). -/
  bitcnt   : Nat
  /-- `RQBUF`, first accepted byte first (R40). -/
  rqbuf    : List Byte
  /-- The rasterizer's working state, `none` outside CHAR and LINE (R41, R46). -/
  raster   : Option Raster
  /-- The level of `RESET_N` (R24). -/
  resetN   : Bool
  /-- The host's actions still to come, next first (log 1). -/
  host     : List HostAction
  /-- The host's last register read: `RD_ADDR` and `RD_DATA` (R23, log 14). -/
  lastRead : Option (RegAddr × Byte)
  /-- The events since the last block reset, oldest first (R13, R14). -/
  trace    : List Event
  /-- The traces that block resets ended, oldest first (R158, log 12). -/
  earlier  : List (List Event)
  /-- How many free values have been drawn (R158, R166, log 11). -/
  draws    : Nat
  deriving DecidableEq, Repr

/-- Why the machine stops with a fault. -/
inductive Fault where
  /-- Raised by `MemRead` of a glyph ROM address above 284, which has no contents (R49, R56). Safe: no request reaches
  it (R115). -/
  | romAddress (addr : RomAddr)
  deriving DecidableEq, Repr

/-- Why the machine refuses to go on. -/
inductive Refusal where
  /-- Raised by an arm of `exec` whose instruction has no meaning. Safe. No arm raises it. -/
  | notModelled (mnemonic : String)
  /-- Raised by the block step when `STATUS.BUSY = 1` and `RQBUF` is not one complete request. Safe: R22 sets BUSY at
  a request's last byte only, so no run reaches it (log 19). -/
  | brokenRequest
  deriving DecidableEq, Repr

/-- The machine right after block reset, `RESET_N` high again (R46, R155). -/
def State.reset : State where
  pins     := ⟨false, false, false, false⟩
  status   := ⟨false, false, false, false, false, false⟩
  cidx     := true
  curRow   := 0
  curCol   := 0
  errcode  := 0x00
  shift    := 0
  bitcnt   := 0
  rqbuf    := []
  raster   := none
  resetN   := true
  host     := []
  lastRead := none
  trace    := []
  earlier  := []
  draws    := 0

end Sys2Proof.Machine
end

