-- ==== Sys2Proof/Machine/Flags.lean ====
section
/-! DEFINITION. The status cells: error bits and their recording (R137 to R139), the STATUS byte (R28, R135). -/

namespace Sys2Proof.Machine

/-- The error conditions (R137). -/
inductive ErrorCode where
  /-- `ERR_PREINIT`, STATUS bit 3. -/
  | preinit
  /-- `ERR_REINIT`, STATUS bit 4. -/
  | reinit
  /-- `ERR_BADOP`, STATUS bit 5. -/
  | badop
  deriving DecidableEq, Repr

/-- `STATUS.code <- 1` (R139). -/
def Status.setError (st : Status) : ErrorCode → Status
  | .preinit => { st with errPreinit := true }
  | .reinit => { st with errReinit := true }
  | .badop => { st with errBadop := true }

/-- Some error bit is set (R139, R154). -/
def Status.anyError (st : Status) : Bool := st.errPreinit || st.errReinit || st.errBadop

/-- `raise Err(code)` in a request with opcode `op` (R139): `ERRCODE` records the first error's opcode (R37), and the
bit is set. No control is transferred (R145). -/
def raiseErr (code : ErrorCode) (op : Byte) (s : State) : State :=
  { s with
    errcode := if s.status.anyError then s.errcode else op
    status := s.status.setError code }

/-- The STATUS byte, bit 7 first: 0, MODE, ERR_BADOP, ERR_REINIT, ERR_PREINIT, CUR_VALID, INIT_DONE, BUSY
(R28, R135). -/
def statusByte (s : State) : Byte :=
  BitVec.ofBoolListBE
    [false, s.pins.dc, s.status.errBadop, s.status.errReinit, s.status.errPreinit, s.status.curValid,
      s.status.initDone, s.status.busy]

/-- The CTRL byte: bit 0 is CIDX, bits 7:1 read 0 (R34, R135). -/
def ctrlByte (s : State) : Byte := if s.cidx then 0x01 else 0x00

end Sys2Proof.Machine
end

