-- ==== Sys2Proof/Machine/Ops.lean ====
section
/-! DEFINITION. The operations the meanings are written over: pin writes and holds (R13), the glyph ROM read (R49), the
acceptance check (R138), and the sequencing of outcomes. -/

namespace Sys2Proof.Machine

/-- Go on with `f` after a next state; a fault or a refusal stands. -/
def andThen (o : Host.Outcome State Fault Refusal) (f : State → Host.Outcome State Fault Refusal) :
    Host.Outcome State Fault Refusal :=
  match o with
  | .next s => f s
  | .fault r => .fault r
  | .refused r => .refused r

/-- The level of one pin. -/
def Pins.get (p : Pins) : Pin → Bool
  | .sclk => p.sclk
  | .sdin => p.sdin
  | .dc => p.dc
  | .rst => p.rst

/-- The pins with one level written. -/
def Pins.put (p : Pins) (pin : Pin) (level : Bool) : Pins :=
  match pin with
  | .sclk => { p with sclk := level }
  | .sdin => { p with sdin := level }
  | .dc => { p with dc := level }
  | .rst => { p with rst := level }

/-- `Emit(pin, level)` (R13): the event, and the pin's output register. -/
def emit (pin : Pin) (level : Bool) (s : State) : State :=
  { s with pins := s.pins.put pin level, trace := s.trace ++ [.set pin level] }

/-- `Hold(d)` (R13): the event; the pins keep their levels. -/
def hold (duration : Nat) (s : State) : State :=
  { s with trace := s.trace ++ [.hold duration] }

/-- `MemRead(addr, 1)` of the glyph ROM (R49); an address above 284 has no contents (R56). -/
def memRead (addr : RomAddr) : Option Byte :=
  if h : addr.toNat < 285 then some (Config.glyphRom ⟨addr.toNat, h⟩) else none

/-- The acceptance check of a request with opcode `op` (R138): at most one error is raised, before any event. It is the
whole of what a reserved opcode does; every other request then executes. -/
def accept (op : Byte) (s : State) : State :=
  if 9 ≤ op.toNat then raiseErr .badop op s
  else if op.toNat = 1 ∧ s.status.initDone = true then raiseErr .reinit op s
  else if 2 ≤ op.toNat ∧ op.toNat ≤ 7 ∧ s.status.initDone = false then raiseErr .preinit op s
  else s

end Sys2Proof.Machine
end

