-- ==== Sys2Proof/Machine/Control.lean ====
section
/-! DEFINITION. The requests without events: NOP, WRCTRL and the reserved opcodes (44_control.md, R76, R142). -/

namespace Sys2Proof.Machine

/-- NOP (R133): nothing. -/
def execNop (s : State) : Host.Outcome State Fault Refusal :=
  .next (accept Instr.nop.opcode s)

/-- WRCTRL (R134): `CTRL.CIDX <- imm8[0]`. -/
def execWrctrl (imm8 : Byte) (s : State) : Host.Outcome State Fault Refusal :=
  let t := accept (Instr.wrctrl imm8).opcode s
  .next { t with cidx := ctrlOperandCidx imm8 }

/-- A reserved opcode (R76, R138, R142): `ERR_BADOP`, and nothing is executed. -/
def execReserved (op : Byte) (s : State) : Host.Outcome State Fault Refusal :=
  .next (raiseErr .badop op s)

end Sys2Proof.Machine
end

