-- ==== Sys2Proof/Machine/Transport.lean ====
section
/-! DEFINITION. The bit-bang serial transport (40_transport.md). -/

namespace Sys2Proof.Machine

/-- One turn of the loop of R83: SDIN, one clock pulse, the shift and the count. -/
def shiftBit (s : State) : State :=
  let t := emit .sclk false (emit .sclk true (emit .sdin (s.shift.getLsbD 7) s))
  { t with shift := t.shift <<< 1, bitcnt := t.bitcnt - 1 }

/-- `while BITCNT > 0` (R83), at most `fuel` turns. -/
def shiftOut : Nat → State → State
  | 0, s => s
  | fuel + 1, s => if 0 < s.bitcnt then shiftOut fuel (shiftBit s) else s

/-- `transmit(b)` (R83). -/
def transmit (b : Byte) (s : State) : State :=
  shiftOut 8 { s with shift := b, bitcnt := 8 }

end Sys2Proof.Machine
end

