-- ==== Sys2Proof/Machine/Framer.lean ====
section
/-! DEFINITION. The command/data framer and the requests INIT, CMD and DATA (41_protocol.md). -/

namespace Sys2Proof.Machine

/-- `send_command(b)` (R93). -/
def sendCommand (b : Byte) (s : State) : State :=
  transmit b (emit .dc dcCmdLevel s)

/-- `advance_cursor()` (R95); the wrap from (5, 83) is UNVERIFIED (log 10). -/
def advanceCursor (s : State) : State :=
  if s.status.curValid then
    if s.curCol.toNat = width - 1 then
      { s with curCol := 0, curRow := if s.curRow.toNat = rows - 1 then 0 else s.curRow + 1 }
    else { s with curCol := s.curCol + 1 }
  else s

/-- `send_data(b)` (R94). -/
def sendData (b : Byte) (s : State) : State :=
  advanceCursor (transmit b (emit .dc (!dcCmdLevel) s))

/-- `send_command` of each byte of a list, in list order (R100, R106). -/
def sendCommands : List Byte → State → State
  | [], s => s
  | b :: bs, s => sendCommands bs (sendCommand b s)

/-- `STATUS.CUR_VALID <- 0` (R96, R100). -/
def invalidateCursor (s : State) : State :=
  { s with status := { s.status with curValid := false } }

/-- The body of INIT for an initialisation sequence and a hold (R100, R101). -/
def initialise (seq : List Byte) (duration : Nat) (s : State) : State :=
  let t := invalidateCursor (sendCommands seq (emit .rst true (hold duration (emit .rst false s))))
  { t with status := { t.status with initDone := true } }

/-- INIT (R100): the reset pulse and `INIT_SEQ`; a second INIT is flagged and still executes (R141). -/
def execInit (s : State) : Host.Outcome State Fault Refusal :=
  .next (initialise Config.initSeq rstHold (accept Instr.init.opcode s))

/-- CMD (R96): one command byte, sent unchanged; the shadow cursor becomes invalid. -/
def execCmd (imm8 : Byte) (s : State) : Host.Outcome State Fault Refusal :=
  .next (invalidateCursor (sendCommand imm8 (accept (Instr.cmd imm8).opcode s)))

/-- DATA (R97): one data byte, sent unchanged; a valid shadow cursor advances. -/
def execData (imm8 : Byte) (s : State) : Host.Outcome State Fault Refusal :=
  .next (sendData imm8 (accept (Instr.data imm8).opcode s))

end Sys2Proof.Machine
end

