-- ==== Sys2Proof/Machine/Frame.lean ====
section
/-! DEFINITION. Cursor addressing and clear (42_frame.md). -/

namespace Sys2Proof.Machine

/-- `set_cursor(r, x)` (R106), for r < ROWS and x < WIDTH: the cursor pair, row first (R107), then the shadow. -/
def setCursor (r x : Byte) (s : State) : State :=
  let t := sendCommands (cursorPair r x) s
  { t with
    curRow := r.setWidth 3
    curCol := x.setWidth 7
    status := { t.status with curValid := true } }

/-- `send_data(b)`, n times (R110). -/
def sendDataTimes : Nat → Byte → State → State
  | 0, _, s => s
  | n + 1, b, s => sendDataTimes n b (sendData b s)

/-- CURSOR (R108): in range it sets the cursor; out of range it is a silent no-op (R109). -/
def execCursor (row x : Byte) (s : State) : Host.Outcome State Fault Refusal :=
  let t := accept (Instr.cursor row x).opcode s
  .next (if row.toNat < rows ∧ x.toNat < width then setCursor row x t else t)

/-- CLEAR (R110): cursor to (0, 0), then every byte of the surface. -/
def execClear (s : State) : Host.Outcome State Fault Refusal :=
  .next (sendDataTimes surfaceBytes clearByte (setCursor 0 0 (accept Instr.clear.opcode s)))

end Sys2Proof.Machine
end

