-- ==== Sys2Proof/Machine/Glyph.lean ====
section
/-! DEFINITION. The rasterizer: the column shifter, CHAR and LINE (43_glyph.md). The pixel column, the text index and the
column index are the working state of R41, live between `startRaster` and `endRaster`. -/

namespace Sys2Proof.Machine

/-- The working state of a request that begins at pixel column `px` (R41). -/
def startRaster (px : Nat) (s : State) : State := { s with raster := some ⟨px, 0, 0⟩ }

/-- No working state survives the request (R41). -/
def endRaster (s : State) : State := { s with raster := none }

/-- `PX` (R41); 0 when no working state is live. -/
def State.px (s : State) : Nat := match s.raster with
  | some r => r.px
  | none => 0

/-- The index of the current text byte (R41); 0 when no working state is live. -/
def State.textIdx (s : State) : Nat := match s.raster with
  | some r => r.textIdx
  | none => 0

/-- The column index within the glyph (R41); 0 when no working state is live. -/
def State.colIdx (s : State) : Nat := match s.raster with
  | some r => r.colIdx
  | none => 0

/-- The column index moves to `i` (R118). -/
def setColumn (i : Nat) (s : State) : State :=
  { s with raster := s.raster.map fun r => { r with colIdx := i } }

/-- `px <- px + CHAR_PITCH`, `k <- k + 1` (R124). -/
def nextChar (s : State) : State :=
  { s with raster := s.raster.map fun r => { r with px := r.px + charPitch, textIdx := r.textIdx + 1 } }

/-- The loop over `n` more glyph columns from ROM address `a` (R118); a clipped column is not read (R121). -/
def emitColumns (a : RomAddr) : Nat → State → Host.Outcome State Fault Refusal
  | 0, s => .next s
  | n + 1, s =>
    if s.px + s.colIdx < width then
      match memRead (a + BitVec.ofNat 9 s.colIdx) with
      | some b => emitColumns a n (setColumn (s.colIdx + 1) (sendData b s))
      | none => .fault (.romAddress (a + BitVec.ofNat 9 s.colIdx))
    else emitColumns a n (setColumn (s.colIdx + 1) s)

/-- The blank column, if a fourth column still fits (R118, R119). -/
def emitBlank (s : State) : State :=
  if s.px + glyphCols < width then sendData blankByte s else s

/-- `draw_glyph(row, px, c)` with `px` the working state's pixel column (R118); clipped away when the row or the column
reaches the surface's bound (90_conflicts.md C1). -/
def drawGlyph (row c : Byte) (s : State) : Host.Outcome State Fault Refusal :=
  if rows ≤ row.toNat ∨ width ≤ s.px then .next s
  else
    andThen (emitColumns (glyphAddr c) glyphCols (setColumn 0 (setCursor row (BitVec.ofNat 8 s.px) s)))
      fun t => .next (emitBlank t)

/-- CHAR (R123). -/
def execChar (row col ch : Byte) (s : State) : Host.Outcome State Fault Refusal :=
  let t := accept (Instr.char row col ch).opcode s
  andThen (drawGlyph row ch (startRaster (pixelColumn t.cidx col) t)) fun u => .next (endRaster u)

/-- The loop of LINE (R124): it goes on while `k < len`, `text[k]` is not 0x00 and `px < WIDTH`; at most `fuel`
turns. -/
def lineLoop (row len : Byte) (text : List Byte) : Nat → State → Host.Outcome State Fault Refusal
  | 0, s => .next s
  | fuel + 1, s =>
    match text[s.textIdx]? with
    | none => .next s
    | some ch =>
      if s.textIdx < len.toNat ∧ ch ≠ 0x00 ∧ s.px < width then
        andThen (drawGlyph row ch s) fun t => lineLoop row len text fuel (nextChar t)
      else .next s

/-- LINE (R124): `CTRL.CIDX` is read once, for the starting column, and not written (R125). -/
def execLine (row col len : Byte) (text : List Byte) (s : State) : Host.Outcome State Fault Refusal :=
  let t := accept (Instr.line row col len text).opcode s
  andThen (lineLoop row len text len.toNat (startRaster (pixelColumn t.cidx col) t)) fun u => .next (endRaster u)

end Sys2Proof.Machine
end

