-- ==== Sys2Proof/Machine/Dispatch.lean ====
section
/-! DEFINITION. The meaning of each request: one arm per constructor. -/

namespace Sys2Proof.Machine

def exec (i : Instr) (s : State) : Host.Outcome State Fault Refusal :=
  match i with
  | .nop => Sys2Proof.Machine.execNop s
  | .init => Sys2Proof.Machine.execInit s
  | .cmd imm8 => Sys2Proof.Machine.execCmd imm8 s
  | .data imm8 => Sys2Proof.Machine.execData imm8 s
  | .cursor row x => Sys2Proof.Machine.execCursor row x s
  | .clear => Sys2Proof.Machine.execClear s
  | .char row col ch => Sys2Proof.Machine.execChar row col ch s
  | .line row col len text => Sys2Proof.Machine.execLine row col len text s
  | .wrctrl imm8 => Sys2Proof.Machine.execWrctrl imm8 s
  | .reserved op => Sys2Proof.Machine.execReserved op s

end Sys2Proof.Machine
end

