-- ==== Sys2Proof/Machine/Port.lean ====
section
/-! DEFINITION. The register read port (R23, R27, R135, R166), the block reset input (R24, R155), and `REQ_READY`. -/

namespace Sys2Proof.Machine

/-- `REQ_READY` (R22, R24, R46). -/
def State.reqReady (s : State) : Bool := s.resetN && !s.status.busy

/-- The registers as a read finds them. While BUSY (R166): the error bits and `ERRCODE` as of acceptance, that is after
the check of the pending request (log 3); `CURROW`, `CURCOL`, `CUR_VALID` and `MODE` free (log 11). -/
def readView (s : State) : State :=
  if s.status.busy then
    let t := match s.rqbuf with
      | op :: _ => accept op s
      | [] => s
    { t with
      curRow := Config.busyCurRow s.draws
      curCol := Config.busyCurCol s.draws
      status := { t.status with curValid := Config.busyCurValid s.draws }
      pins := { t.pins with dc := Config.busyMode s.draws } }
  else s

/-- The byte of a register (R135); addresses 5, 6 and 7 read 0x00 (R38). -/
def registerByte (a : RegAddr) (s : State) : Byte :=
  match a.toNat with
  | 0 => statusByte s
  | 1 => ctrlByte s
  | 2 => s.curRow.setWidth 8
  | 3 => s.curCol.setWidth 8
  | 4 => s.errcode
  | _ => 0x00

/-- `read(a)` (R135, R166): `RD_DATA` for `RD_ADDR = a`. -/
def readRegister (a : RegAddr) (s : State) : Byte := registerByte a (readView s)

/-- The host's register read: the block's state keeps its values (R23); a read while BUSY draws a free value. -/
def hostRead (a : RegAddr) (s : State) : State :=
  { s with
    lastRead := some (a, readRegister a s)
    draws := if s.status.busy then s.draws + 1 else s.draws }

/-- Every state element of the block at its reset value (R24, R46, R155); the host's side, the level of `RESET_N` and
the record of events are not the block's state elements. -/
def toResetValues (s : State) : State :=
  { State.reset with
    resetN := s.resetN
    host := s.host
    lastRead := s.lastRead
    trace := s.trace
    earlier := s.earlier
    draws := s.draws }

/-- Block reset is asserted while the events so far are `trace`: that run is over, and the next one's trace begins empty
(R155, R158, log 12). -/
def assertReset (events : List Event) (s : State) : State :=
  { toResetValues s with
    resetN := false
    trace := []
    earlier := s.earlier ++ [events] }

end Sys2Proof.Machine
end

