-- ==== Sys2Proof/Machine/Sequencer.lean ====
section
/-! DEFINITION. The block step and the host steps (R22, R24, R25, R29, R58, R160, R168): what `step` calls. -/

namespace Sys2Proof.Machine

/-- Completion of a request: `STATUS.BUSY <- 0`, and `RQBUF` is empty between requests (R22, R29, R40). -/
def complete (s : State) : State :=
  { s with status := { s.status with busy := false }, rqbuf := [] }

/-- The block step (R22): the request in `RQBUF` executes to completion. -/
def runPending (s : State) : Host.Outcome State Fault Refusal :=
  match decode s.rqbuf with
  | .ok (i, []) => andThen (exec i s) fun t => .next (complete t)
  | _ => .refused .brokenRequest

/-- The requests whose BUSY is set and cleared in one block step: NOP, WRCTRL and the reserved opcodes (R29). -/
def instantOpcode (op : Byte) : Bool := op.toNat = 0 || op.toNat = 8 || decide (9 ≤ op.toNat)

/-- The request in `RQBUF` is one of those of R29. -/
def instantPending (rq : List Byte) : Bool := match rq with
  | op :: _ => instantOpcode op
  | [] => false

/-- A handshake (R22, R71): the byte joins `RQBUF`; the last byte of a request sets BUSY, and a request of R29 is then
executed at once. -/
def acceptByte (b : Byte) (s : State) : Host.Outcome State Fault Refusal :=
  let t := { s with rqbuf := s.rqbuf ++ [b] }
  if requestComplete t.rqbuf then
    let u := { t with status := { t.status with busy := true } }
    if instantPending u.rqbuf then runPending u else .next u
  else .next t

/-- The events of this run when block reset comes now (R158): all so far, and of a request in execution a first part
of free length. -/
def eventsAtReset (s : State) : List Event :=
  if s.status.busy then
    match runPending s with
    | .next t => s.trace ++ (t.trace.drop s.trace.length).take (Config.resetCut s.draws)
    | _ => s.trace
  else s.trace

/-- The host drives `RESET_N` while it is high (R24). -/
def driveResetFromHigh (level : Bool) (s : State) : State :=
  if level then s
  else { assertReset (eventsAtReset s) s with draws := if s.status.busy then s.draws + 1 else s.draws }

/-- One step with `RESET_N = 1`. A read and the reset input act at any time; a byte and a wait need `REQ_READY`, so a
pending request executes first (R22, R59, R60, R160). With nothing to do the block waits (R168). -/
def stepRunning (s : State) : Host.Outcome State Fault Refusal :=
  match s.host with
  | .read a :: rest => .next (hostRead a { s with host := rest })
  | .driveResetN level :: rest => .next (driveResetFromHigh level { s with host := rest })
  | .send b :: rest => if s.status.busy then runPending s else acceptByte b { s with host := rest }
  | .awaitReady :: rest => if s.status.busy then runPending s else .next { s with host := rest }
  | [] => if s.status.busy then runPending s else .next s

/-- One step with `RESET_N = 0`: every state element has its reset value and no byte is accepted (R24, R155). -/
def stepHeld (s : State) : Host.Outcome State Fault Refusal :=
  let t := toResetValues s
  match s.host with
  | .read a :: rest => .next (hostRead a { t with host := rest })
  | .driveResetN level :: rest => .next { t with host := rest, resetN := level }
  | .send _ :: _ => .next t
  | .awaitReady :: _ => .next t
  | [] => .next t

/-- The host's actions with a wait in front, so that the pending request is what the next step executes. -/
def waitFirst : List HostAction → List HostAction
  | [] => []
  | a :: rest => .awaitReady :: a :: rest

/-- All bytes of a request have been accepted: it is pending, and the next step is its block step. -/
def withPending (rq : List Byte) (s : State) : State :=
  { s with
    rqbuf := rq
    status := { s.status with busy := true }
    resetN := true
    host := waitFirst s.host }

end Sys2Proof.Machine
end

