-- ==== Sys2Proof/Machine/Step.lean ====
section
/-! DEFINITION. One step of the machine: a host step or a block step (R22). -/

namespace Sys2Proof.Machine

/-- One step: a handshake, a register read, a change of `RESET_N`, a wait, or the execution of the pending request. -/
def step (s : State) : Host.Outcome State Fault Refusal :=
  if s.resetN then stepRunning s else stepHeld s

/-- The state in which the request of a table word has been accepted whole, so that the next step executes it
(log 18). -/
def State.withFetchWord (s : State) (nbits w : Nat) : State :=
  withPending (tableWordRequest nbits w) s

end Sys2Proof.Machine
end

