-- ==== Sys2Proof/Machine/Display.lean ====
section
/-! DEFINITION. The display memory of the reference receiver (R64) as a list of cells in one canonical form: addresses
strictly rising. An unlisted address is one whose contents are not known; it reads as `none`, so no listed entry equals
what an unlisted address reads as (log 20). -/

namespace Sys2Proof.Machine

/-- Display bytes by address, row * WIDTH + column. -/
abbrev DisplayMemory := List Host.Cell

/-- The byte at an address, `none` where it is not known. -/
def readCell : DisplayMemory → Nat → Option Byte
  | [], _ => none
  | (a, v) :: m, addr => if addr = a then some v else readCell m addr

/-- A byte written at an address, the order of addresses kept. -/
def writeCell : DisplayMemory → Nat → Byte → DisplayMemory
  | [], addr, b => [(addr, b)]
  | (a, v) :: m, addr, b =>
    if addr < a then (addr, b) :: (a, v) :: m
    else if addr = a then (addr, b) :: m
    else (a, v) :: writeCell m addr b

/-- Every address of the list is above `bound`, and they rise strictly. -/
def cellsAbove : Nat → DisplayMemory → Bool
  | _, [] => true
  | bound, (a, _) :: m => decide (bound < a) && cellsAbove a m

/-- The canonical form. -/
def Memory.wf : DisplayMemory → Bool
  | [] => true
  | (a, _) :: m => cellsAbove a m

end Sys2Proof.Machine
end

