-- ==== Sys2Proof/Machine/Trace.lean ====
section
/-! DEFINITION. What an observer sees: the wire trace (R14), the pin levels a trace leaves, and the events of framed
bytes in closed form (R84, R91, R98), which statements compare the meanings with. -/

namespace Sys2Proof.Machine

/-- The pin levels after one event (R13). -/
def pinsAfterEvent (p : Pins) : Event → Pins
  | .set pin level => p.put pin level
  | .hold _ => p

/-- The pin levels after a list of events. -/
def pinsAfter (p : Pins) (es : List Event) : Pins := es.foldl pinsAfterEvent p

/-- The wire trace (R14): every write of the level a pin already has is left out. -/
def wireTrace : Pins → List Event → List Event
  | _, [] => []
  | p, .hold d :: es => .hold d :: wireTrace p es
  | p, .set pin level :: es =>
    if p.get pin = level then wireTrace p es else .set pin level :: wireTrace (p.put pin level) es

/-- The three events of one transmitted bit (R85, R91). -/
def bitEvents (bit : Bool) : List Event := [.set .sdin bit, .set .sclk true, .set .sclk false]

/-- The events of one transmitted byte: pulse k carries bit `7 - k` (R84, R91). -/
def byteEvents (b : Byte) : List Event := (List.range 8).flatMap fun k => bitEvents (b.getLsbD (7 - k))

/-- A byte as it is framed: command or data (R16). -/
inductive Framed where
  | command (b : Byte)
  | data (b : Byte)
  deriving DecidableEq, Repr

/-- The events of one framed byte: one write of `DC`, then the byte (R93, R94, R98). -/
def framedEvents : Framed → List Event
  | .command b => .set .dc dcCmdLevel :: byteEvents b
  | .data b => .set .dc (!dcCmdLevel) :: byteEvents b

/-- The events of framed bytes in order. -/
def framesEvents (fs : List Framed) : List Event := fs.flatMap framedEvents

/-- The number of changes of `SCLK` to a level in a list of events. -/
def clockWrites (level : Bool) (es : List Event) : Nat := es.countP fun e => e = .set .sclk level

end Sys2Proof.Machine
end

