-- ==== Sys2Proof/Machine/Receiver.lean ====
section
/-! DEFINITION. The reference receiver of R64 to R68: what the block assumes of the display controller. It is no part of
State; claims about the display run it over the events of a request. -/

namespace Sys2Proof.Machine

/-- The reference receiver: the pin levels it sees, the bits of the byte coming in (first bit first), the device cursor
(Y, X), each known or not, the display memory (R64, R65, R66), and whether the command bytes that come are raw, that is
sent by CMD or INIT. The wires do not show whose bytes they are; R65 tells them apart, so the field does (log 20). -/
structure Receiver where
  pins : Pins
  bits : List Bool
  y    : Option Nat
  x    : Option Nat
  mem  : DisplayMemory
  raw  : Bool
  deriving DecidableEq, Repr

/-- The receiver while `RST` is low, and after it until bytes tell more: nothing is known (R157, log 20). -/
def Receiver.lost (r : Receiver) : Receiver := { r with bits := [], y := none, x := none, mem := [] }

/-- The receiver from block reset on: all pins low (R46, R157). -/
def Receiver.atReset : Receiver := ⟨⟨false, false, false, false⟩, [], none, none, [], false⟩

/-- A command byte (R65): set Y, set X, or another byte, after which the cursor is unknown. A raw byte leaves it unknown
whatever its value (R65, R164). -/
def Receiver.command (r : Receiver) (b : Byte) : Receiver :=
  if r.raw then { r with y := none, x := none }
  else if 0x40 ≤ b.toNat ∧ b.toNat < 0x40 + rows then { r with y := some (b.toNat - 0x40) }
  else if 0x80 ≤ b.toNat ∧ b.toNat < 0x80 + width then { r with x := some (b.toNat - 0x80) }
  else { r with y := none, x := none }

/-- A data byte (R64): written at (Y, X), and the cursor advances in row-major order. With the cursor unknown it lands
on an unknown byte, after which nothing is known (log 20). -/
def Receiver.data (r : Receiver) (b : Byte) : Receiver :=
  match r.y, r.x with
  | some y, some x =>
    let m := writeCell r.mem (y * width + x) b
    if x + 1 = width then { r with mem := m, x := some 0, y := some (if y + 1 = rows then 0 else y + 1) }
    else { r with mem := m, x := some (x + 1) }
  | _, _ => { r with y := none, x := none, mem := [] }

/-- A whole byte of the kind `DC` shows (R66). -/
def Receiver.byte (r : Receiver) (b : Byte) : Receiver :=
  if r.pins.dc = dcCmdLevel then r.command b else r.data b

/-- The byte whose bits came in, first bit first, most significant bit first (R84). -/
def byteOfBits (bits : List Bool) : Byte :=
  bits.foldl (fun acc bit => (acc <<< 1) ||| (if bit then 1 else 0)) 0

/-- One bit sampled; the eighth completes the byte (R66). -/
def Receiver.sample (r : Receiver) (bit : Bool) : Receiver :=
  if r.bits.length = 7 then { r with bits := [] }.byte (byteOfBits (r.bits ++ [bit]))
  else { r with bits := r.bits ++ [bit] }

/-- One event on the pins: `SDIN` is sampled at the falling edge of `SCLK` (R66). -/
def Receiver.event (r : Receiver) : Event → Receiver
  | .hold _ => r
  | .set pin level =>
    let t := { r with pins := r.pins.put pin level }
    if t.pins.rst = false then t.lost
    else if pin = .sclk ∧ r.pins.sclk = true ∧ level = false then t.sample t.pins.sdin
    else t

/-- The receiver after a list of events. -/
def Receiver.run (r : Receiver) (es : List Event) : Receiver := es.foldl Receiver.event r

/-- The request sends raw command bytes: it is CMD or INIT (R65). -/
def sendsRawCommands : Instr → Bool
  | .nop => false
  | .init => true
  | .cmd _ => true
  | .data _ => false
  | .cursor _ _ => false
  | .clear => false
  | .char _ _ _ => false
  | .line _ _ _ _ => false
  | .wrctrl _ => false
  | .reserved _ => false

/-- The receiver after the events `es` of the request `i` (R65). -/
def Receiver.request (r : Receiver) (i : Instr) (es : List Event) : Receiver :=
  { r with raw := sendsRawCommands i }.run es

end Sys2Proof.Machine
end

