-- ==== Sys2Proof/Safety.lean ====
section
/-! DEFINITION. What counts as a good state and a safe run: the invariant of the machine between steps, correct use
(R154), the end of a run (R172), agreement with the reference receiver (R31); and the closed forms claims are stated
in. -/

namespace Sys2Proof.Machine

/-- What holds of every state between steps. -/
structure State.Inv (s : State) : Prop where
  /-- A valid shadow cursor is on the surface (R35, R36). -/
  cursor : s.status.curValid = true → s.curRow.toNat < rows ∧ s.curCol.toNat < width
  /-- The transport is idle and `SCLK` is low (R39, R86, R92). -/
  transport : s.pins.sclk = false ∧ s.shift = 0 ∧ s.bitcnt = 0
  /-- No rasterizer working state is live (R41, R46). -/
  raster : s.raster = none
  /-- `RST` is high exactly from the first INIT on (R46, R100, R101). -/
  display : s.pins.rst = s.status.initDone
  /-- `ERRCODE` is 0 until an error is recorded (R37). -/
  errcode : s.status.anyError = false → s.errcode = 0
  /-- The pins have the levels the trace gives them from their reset levels (R13, R21, R46). -/
  wires : pinsAfter State.reset.pins s.trace = s.pins
  /-- While BUSY, `RQBUF` is a complete request that emits events (R22, R29). -/
  busy : s.status.busy = true → requestComplete s.rqbuf = true ∧ instantPending s.rqbuf = false
  /-- Otherwise the request in `RQBUF` still lacks a byte (R22, R40, R71). -/
  partialRequest : s.status.busy = false → ∀ n, requestLength s.rqbuf = some n → s.rqbuf.length < n
  /-- While `RESET_N` is low every state element has its reset value (R24). -/
  held : s.resetN = false → s = toResetValues s

/-- No misuse has been recorded: the premise R154 asks of claims about display contents. -/
def State.noErrors (s : State) : Bool := !s.status.anyError

/-- The action sends a byte (R22). -/
def HostAction.sendsByte : HostAction → Bool
  | .send _ => true
  | .read _ => false
  | .awaitReady => false
  | .driveResetN _ => false

/-- A run has ended: the host has no more bytes to send, `STATUS.BUSY = 0` and `RQBUF` is empty (R172). -/
def State.finished (s : State) : Bool := !s.host.any HostAction.sendsByte && !s.status.busy && s.rqbuf.isEmpty

/-- The observation of a run: its wire trace from the reset levels on, and the bytes of the registers 0 to 7 (R14, R135,
R172). -/
def State.observation (s : State) : List Event × List Byte :=
  (wireTrace State.reset.pins s.trace, (List.range 8).map fun a => readRegister (BitVec.ofNat 3 a) s)

/-- The state is one in which the pending request is what the next step executes. -/
def State.aboutToRun (s : State) : Bool :=
  s.resetN && s.status.busy &&
    match s.host with
    | .read _ :: _ => false
    | .driveResetN _ :: _ => false
    | _ => true

/-- The reference receiver has followed the block: it sees the block's pins, holds no part of a byte, and once the
display is initialised its cursor is the shadow cursor whenever that is valid (R31). -/
def Tracks (r : Receiver) (s : State) : Prop :=
  r.pins = s.pins ∧ s.pins.sclk = false ∧ r.bits = [] ∧
    (s.status.initDone = true → s.pins.rst = true ∧
      (s.status.curValid = true → r.y = some s.curRow.toNat ∧ r.x = some s.curCol.toNat))

/-! Closed forms. -/

/-- The state after the acceptance check of a protocol request, CMD to LINE, with opcode `op` (R138, R139). -/
def afterProtocolCheck (op : Byte) (s : State) : State :=
  { s with
    errcode := if s.status.initDone || s.status.anyError then s.errcode else op
    status := { s.status with errPreinit := s.status.errPreinit || !s.status.initDone } }

/-- The state after the acceptance check of INIT (R138, R139). -/
def afterInitCheck (s : State) : State :=
  { s with
    errcode := if s.status.initDone && !s.status.anyError then 0x01 else s.errcode
    status := { s.status with errReinit := s.status.errReinit || s.status.initDone } }

/-- The cursor pair as framed bytes, row first (R106, R107). -/
def cursorFrames (r x : Byte) : List Framed := [.command (cmdSetY r), .command (cmdSetX x)]

/-- The events of the reset pulse (R100). -/
def resetPulse (d : Nat) : List Event := [.set .rst false, .hold d, .set .rst true]

/-- The characters LINE draws: the text of at most `len` bytes up to its first 0x00, as many as start on the surface
from pixel column `px`, four columns apart (R124, R126). -/
def drawnText (px : Nat) (len : Byte) (text : List Byte) : List Byte :=
  ((text.take len.toNat).takeWhile (· ≠ 0x00)).take ((width - px + 3) / charPitch)

/-- The events of a glyph by pixel column, for a row of the surface (R120, R171). -/
def glyphEventCount (row : Byte) (px : Nat) : Nat :=
  if rows ≤ row.toNat then 0
  else if px ≤ 80 then 150
  else if px = 81 then 125
  else if px = 82 then 100
  else if px = 83 then 75
  else 0

/-- The number of events of a request (R171). -/
def eventCount (cidx : Bool) : Instr → Nat
  | .nop => 0
  | .init => 3 + 25 * Config.initSeq.length
  | .cmd _ => 25
  | .data _ => 25
  | .cursor row x => if row.toNat < 6 ∧ x.toNat < 84 then 50 else 0
  | .clear => 12650
  | .char row col _ => glyphEventCount row (if cidx then col.toNat * 4 else col.toNat)
  | .line row col len text =>
    let px := if cidx then col.toNat * 4 else col.toNat
    ((List.range (drawnText px len text).length).map fun k => glyphEventCount row (px + 4 * k)).sum
  | .wrctrl _ => 0
  | .reserved _ => 0

/-- The request is one of CMD, DATA, CURSOR, CLEAR, CHAR, LINE (R137). -/
def isProtocol : Instr → Bool
  | .nop => false
  | .init => false
  | .cmd _ => true
  | .data _ => true
  | .cursor _ _ => true
  | .clear => true
  | .char _ _ _ => true
  | .line _ _ _ _ => true
  | .wrctrl _ => false
  | .reserved _ => false

/-- The request is a reserved opcode (R137). -/
def isReserved : Instr → Bool
  | .reserved _ => true
  | .nop => false
  | .init => false
  | .cmd _ => false
  | .data _ => false
  | .cursor _ _ => false
  | .clear => false
  | .char _ _ _ => false
  | .line _ _ _ _ => false
  | .wrctrl _ => false

/-- The request may write the shadow cursor (R45). -/
def movesCursor (i : Instr) : Bool := isProtocol i || decide (i = .init)

/-- The receiver is listening: display out of reset, no part of a byte taken in, the block's pins in view. -/
def Listening (r : Receiver) (s : State) : Prop :=
  r.pins = s.pins ∧ s.pins.sclk = false ∧ s.pins.rst = true ∧ r.bits = []

end Sys2Proof.Machine
end

