-- ==== Sys2Proof/Certificates/Slice0/Obligations.lean ====
section
/-! DEFINITION. The statements for the provers. "Every other field as before" is said by a record equation: the state
answered is the state before with the named fields written. The block has no writable memory (R43, R61), so a frame over
memory says nothing here; the statements about the display run the reference receiver over the events of a request. -/

open Sys2Proof Sys2Proof.Machine

/-! ## Reset -/

/-- R46: every state element right after block reset, the levels of the pins, and the eight register reads (the example
of R135). -/
def Obligations.ResetValues : Prop :=
  State.reset.pins = ⟨false, false, false, false⟩ ∧
  State.reset.status = ⟨false, false, false, false, false, false⟩ ∧
  State.reset.cidx = true ∧ State.reset.curRow = 0 ∧ State.reset.curCol = 0 ∧ State.reset.errcode = 0x00 ∧
  State.reset.shift = 0 ∧ State.reset.bitcnt = 0 ∧ State.reset.rqbuf = [] ∧ State.reset.raster = none ∧
  State.reset.reqReady = true ∧
  (List.range 8).map (fun a => readRegister (BitVec.ofNat 3 a) State.reset) =
    [0x00, 0x01, 0x00, 0x00, 0x00, 0x00, 0x00, 0x00]

/-- R24, R155: while `RESET_N = 0` every state element has its reset value and `REQ_READY = 0`; a byte is not accepted
and a wait does not end; when `RESET_N` returns to 1 the block is idle and ready. The model's own: a read while
`RESET_N = 0` finds the reset values (log 16, DEDUCED), a held wait or byte answers the same reset state (log 17, DESIGN
CHOICE), the block's trace begins empty (log 12, DESIGN CHOICE). -/
def Obligations.BlockReset : Prop :=
  (∀ s rest, s.resetN = true → s.host = .driveResetN false :: rest →
    ∃ t, step s = .next t ∧ t.reqReady = false ∧
      t = { State.reset with
        resetN := false, host := rest, lastRead := s.lastRead, earlier := t.earlier, draws := t.draws } ∧
      (s.status.busy = false → t.earlier = s.earlier ++ [s.trace] ∧ t.draws = s.draws)) ∧
  (∀ s, s.resetN = false →
    (∀ b rest, s.host = .send b :: rest → step s = .next (toResetValues s)) ∧
    (∀ rest, s.host = .awaitReady :: rest → step s = .next (toResetValues s)) ∧
    (∀ a rest, s.host = .read a :: rest → step s = .next { toResetValues s with
      host := rest, lastRead := some (a, registerByte a State.reset) }) ∧
    (∀ rest, s.host = .driveResetN true :: rest →
      ∃ t, step s = .next t ∧ t.reqReady = true ∧ t = { toResetValues s with resetN := true, host := rest }))

/-- R158: block reset during a request leaves a first part of the request's events, of a length nothing fixes. That the
events move to `earlier` is the model's choice (log 12). -/
def Obligations.ResetCutsRequest : Prop :=
  ∀ (s u : State) (i : Instr) (es : List Event) (rest : List HostAction),
    s.resetN = true → s.status.busy = true → decode s.rqbuf = .ok (i, []) → s.host = .driveResetN false :: rest →
    exec i { s with host := rest } = .next u → u.trace = s.trace ++ es →
    ∃ t n, step s = .next t ∧ t.trace = [] ∧ t.earlier = s.earlier ++ [s.trace ++ es.take n]

/-! ## Invariant -/

/-- The reset state meets the invariant of the machine. -/
def Obligations.ResetMeetsInvariant : Prop := State.reset.Inv

/-- Every step keeps the invariant of the machine: shadow cursor on the surface, transport idle, `RST` high exactly
after INIT, `ERRCODE` 0 without an error, pins as the trace leaves them, `RQBUF` and BUSY in step, reset held. That a BUSY
block never holds NOP, WRCTRL or a reserved opcode rests on R29 as log 2 (DEDUCED) reads it; the trace since block reset
is log 12 (DESIGN CHOICE). -/
def Obligations.StepKeepsInvariant : Prop :=
  ∀ s t : State, s.Inv → step s = .next t → t.Inv

/-- From a state that meets the invariant no step stops: no ROM address above 284 is read (R49) and no request is
broken. -/
def Obligations.StepNeverStops : Prop :=
  ∀ s : State, s.Inv → ∃ t, step s = .next t

/-! ## Requests and steps -/

/-- The encoding examples of R81, read and written. -/
def Obligations.EncodingExamples : Prop :=
  ([([0x01], .init), ([0x02, 0x21], .cmd 0x21), ([0x03, 0xFF], .data 0xFF), ([0x04, 0x02, 0x28], .cursor 2 40),
    ([0x05], .clear), ([0x06, 0x00, 0x03, 0x41], .char 0 3 0x41),
    ([0x07, 0x01, 0x00, 0x02, 0x48, 0x69], .line 1 0 2 [0x48, 0x69]),
    ([0x07, 0x00, 0x00, 0x03, 0x41, 0x00, 0x42], .line 0 0 3 [0x41, 0x00, 0x42]),
    ([0x07, 0x00, 0x00, 0x00], .line 0 0 0 []), ([0x08, 0x00], .wrctrl 0x00), ([0xFF], .reserved 0xFF)] :
      List (List Byte × Instr)).all
    (fun p => decide (decode p.1 = .ok (p.2, [])) && decide (encode p.2 = p.1)) = true

/-- Decoding an encoded request gives it back, and leaves the bytes after it, for every request and every operand. -/
def Obligations.DecodeEncode : Prop :=
  ∀ (i : Instr) (rest : List Byte), i.wf = true → decode (encode i ++ rest) = .ok (i, rest)

/-- What the decoder reads is a well-formed request, and its encoding is exactly the bytes taken. -/
def Obligations.EncodeDecode : Prop :=
  ∀ (bs rest : List Byte) (i : Instr), decode bs = .ok (i, rest) → i.wf = true ∧ encode i ++ rest = bs

/-- R71: the length of a request by its first byte, LINE's by its fourth; a request is complete exactly when the number
of accepted bytes equals its length; a byte list that is not empty is a request and more bytes, or lacks bytes. -/
def Obligations.RequestLengthRule : Prop :=
  (∀ (op : Byte) (rest : List Byte), requestLength (op :: rest) =
    if op.toNat ∈ [0x00, 0x01, 0x05] ∨ 0x09 ≤ op.toNat then some 1
    else if op.toNat ∈ [0x02, 0x03, 0x08] then some 2
    else if op.toNat = 0x04 then some 3
    else if op.toNat = 0x06 then some 4
    else rest[2]?.map fun len => 4 + len.toNat) ∧
  (∀ rq : List Byte, (∃ i, decode rq = .ok (i, [])) ↔ requestLength rq = some rq.length) ∧
  (∀ rq : List Byte, (∃ r, decode rq = .ok r) ↔ ∃ n, requestLength rq = some n ∧ n ≤ rq.length)

/-- When the bytes in `RQBUF` decode to a request, the block step is the request's meaning, and after it BUSY is 0 and
`RQBUF` is empty (R22, R40). -/
def Obligations.StepRunsPendingRequest : Prop :=
  ∀ (s : State) (i : Instr), s.aboutToRun = true → decode s.rqbuf = .ok (i, []) →
    step s = andThen (exec i s) fun t =>
      .next { t with status := { t.status with busy := false }, rqbuf := [] }

/-- R22, R29: a handshake. The byte joins `RQBUF`; if the request still lacks a byte nothing else happens; the last byte
sets BUSY, and NOP, WRCTRL and a reserved opcode are executed within the step (the step's grain: log 2, DEDUCED). That a
request left pending has its error bits and `ERRCODE` as before is log 3 (DEDUCED): the acceptance check of R138 is the
first act of the block step. -/
def Obligations.StepAcceptsByte : Prop :=
  ∀ (s : State) (b : Byte) (rest : List HostAction),
    s.reqReady = true → s.host = .send b :: rest →
    (requestLength (s.rqbuf ++ [b]) ≠ some (s.rqbuf.length + 1) →
      step s = .next { s with host := rest, rqbuf := s.rqbuf ++ [b] }) ∧
    (∀ i, decode (s.rqbuf ++ [b]) = .ok (i, []) →
      let p := { s with
        host := rest, rqbuf := s.rqbuf ++ [b], status := { s.status with busy := true } }
      ((i = .nop ∨ (∃ v, i = .wrctrl v) ∨ isReserved i = true) →
        step s = andThen (exec i p) fun t =>
          .next { t with status := { t.status with busy := false }, rqbuf := [] }) ∧
      (¬ (i = .nop ∨ (∃ v, i = .wrctrl v) ∨ isReserved i = true) → step s = .next p))

/-- R22, R160: no byte is accepted while BUSY: the byte the host holds is still held after the step. -/
def Obligations.NoByteAcceptedWhileBusy : Prop :=
  ∀ (s t : State) (b : Byte) (rest : List HostAction),
    s.status.busy = true → s.host = .send b :: rest → step s = .next t → t.host = s.host

/-- R168: a block whose host has nothing more to do waits, with the partial request in `RQBUF`; that it answers the same
state step after step is the model's choice (log 17, DESIGN CHOICE). R172: a run that has ended (no byte to send, BUSY 0,
`RQBUF` empty) stays ended, with the same observation, whatever reads, waits or redriving of `RESET_N` to 1 the host still
does; block reset, which begins a new run, is `BlockReset`'s. -/
def Obligations.PartialRequestWaits : Prop :=
  (∀ s : State, s.resetN = true → s.status.busy = false → s.host = [] → step s = .next s) ∧
  (∀ s : State, s.resetN = true → s.finished = true → (∀ rest, s.host ≠ .driveResetN false :: rest) →
    ∃ t, step s = .next t ∧ t.finished = true ∧ t.observation = s.observation ∧
      t = { s with host := s.host.tail, lastRead := t.lastRead })

/-- A request sent byte by byte to an idle block is pending after its last byte, or executed if it is NOP, WRCTRL or a
reserved opcode (R22, R29, R71). That these execute within their last handshake step is log 2 (DEDUCED); that a pending
request has its error bits as before is log 3 (DEDUCED). -/
def Obligations.RequestSentByteByByte : Prop :=
  ∀ (i : Instr) (s : State) (rest : List HostAction),
    i.wf = true → s.resetN = true → s.status.busy = false → s.rqbuf = [] →
    s.host = (encode i).map .send ++ rest →
    let p := { s with host := rest, rqbuf := encode i, status := { s.status with busy := true } }
    Host.Core.run core (encode i).length s =
      if i = .nop ∨ isReserved i = true ∨ (encode i).head? = some 0x08 then
        andThen (exec i p) fun t =>
          .next { t with status := { t.status with busy := false }, rqbuf := [] }
      else .next p

/-! ## Transport and framer -/

/-- R83: the 24 events of a byte, most significant bit first, SDIN before each pulse; SCLK ends low, SDIN holds bit 0,
SHIFT and BITCNT end 0; nothing else is written. -/
def Obligations.TransmitResult : Prop :=
  ∀ (b : Byte) (s : State), transmit b s = { s with
    pins := { s.pins with sclk := false, sdin := b.getLsbD 0 }
    shift := 0
    bitcnt := 0
    trace := s.trace ++ ([7, 6, 5, 4, 3, 2, 1, 0].flatMap fun k =>
      [Event.set .sdin (b.getLsbD k), Event.set .sclk true, Event.set .sclk false]) }

/-- R86: with SCLK low before it, the wire trace of one `transmit` has exactly 8 rising and 8 falling edges of SCLK. -/
def Obligations.TransmitWireEdges : Prop :=
  ∀ (b : Byte) (s : State) (es : List Event), s.pins.sclk = false → (transmit b s).trace = s.trace ++ es →
    clockWrites true (wireTrace s.pins es) = 8 ∧ clockWrites false (wireTrace s.pins es) = 8

/-- R95: a valid shadow cursor on the surface moves to the next position in row-major order, from the last position to
the first (the wrap is the spec's general knowledge: log 10); an invalid one stays; nothing else is written. -/
def Obligations.AdvanceCursorOrder : Prop :=
  ∀ s : State,
    (s.status.curValid = true → s.curRow.toNat < 6 → s.curCol.toNat < 84 →
      ∃ r c, advanceCursor s = { s with curRow := r, curCol := c } ∧ r.toNat < 6 ∧ c.toNat < 84 ∧
        r.toNat * 84 + c.toNat = (s.curRow.toNat * 84 + s.curCol.toNat + 1) % 504) ∧
    (s.status.curValid = false → advanceCursor s = s)

/-- R13, R98: every request adds events to the trace and leaves the pins at the levels they give. The events are those
of framed bytes, each with one write of DC before its bits, after the reset pulse if the request is INIT. -/
def Obligations.RequestEmitsFramedBytes : Prop :=
  ∀ (i : Instr) (s t : State), exec i s = .next t →
    ∃ fs : List Framed,
      let es := (if i = .init then resetPulse rstHold else []) ++ framesEvents fs
      t.trace = s.trace ++ es ∧ t.pins = pinsAfter s.pins es

/-! ## Results: the next state of every request, on every state and operand -/

/-- R133: NOP changes nothing, and sent to an idle block it is done within the step, BUSY never seen (the step's grain:
log 2). -/
def Obligations.NopResult : Prop :=
  (∀ s : State, exec .nop s = .next s) ∧
  (∀ (s : State) (rest : List HostAction), s.reqReady = true → s.rqbuf = [] → s.host = .send 0x00 :: rest →
    step s = .next { s with host := rest })

/-- R134, R75: WRCTRL writes bit 0 of its operand to CIDX and nothing else; CTRL reads that bit. -/
def Obligations.WrctrlResult : Prop :=
  ∀ (s : State) (imm8 : Byte),
    exec (.wrctrl imm8) s = .next { s with cidx := imm8.getLsbD 0 } ∧
    ctrlByte { s with cidx := imm8.getLsbD 0 } = imm8 &&& 0x01

/-- R142, R139: a reserved opcode byte is a request of its own; it sets ERR_BADOP, records itself if it is the first
error, and does nothing else. -/
def Obligations.ReservedResult : Prop :=
  ∀ (op : Byte), 0x09 ≤ op.toNat →
    (∀ rest, decode (op :: rest) = .ok (.reserved op, rest)) ∧
    ∀ s : State, exec (.reserved op) s = .next { s with
      status := { s.status with errBadop := true }
      errcode := if s.status.errPreinit || s.status.errReinit || s.status.errBadop then s.errcode else op }

/-- R96: CMD sends its operand as one command byte, unchanged, and makes the shadow cursor invalid; before INIT it is
flagged and still executes. -/
def Obligations.CmdResult : Prop :=
  ∀ (s : State) (imm8 : Byte), exec (.cmd imm8) s = .next { s with
    pins := { s.pins with sclk := false, sdin := imm8.getLsbD 0, dc := dcCmdLevel }
    status := { s.status with curValid := false, errPreinit := s.status.errPreinit || !s.status.initDone }
    errcode := if s.status.initDone || s.status.anyError then s.errcode else 0x02
    shift := 0
    bitcnt := 0
    trace := s.trace ++ framedEvents (.command imm8) }

/-- R97, R95: DATA sends its operand as one data byte, unchanged, and a valid shadow cursor advances (the wrap from
(5, 83): log 10); before INIT it is flagged and still executes. -/
def Obligations.DataResult : Prop :=
  ∀ (s : State) (imm8 : Byte), exec (.data imm8) s = .next { s with
    pins := { s.pins with sclk := false, sdin := imm8.getLsbD 0, dc := !dcCmdLevel }
    status := { s.status with errPreinit := s.status.errPreinit || !s.status.initDone }
    errcode := if s.status.initDone || s.status.anyError then s.errcode else 0x03
    curCol := if s.status.curValid then (if s.curCol = 83 then 0 else s.curCol + 1) else s.curCol
    curRow := if s.status.curValid ∧ s.curCol = 83 then (if s.curRow = 5 then 0 else s.curRow + 1) else s.curRow
    shift := 0
    bitcnt := 0
    trace := s.trace ++ framedEvents (.data imm8) }

/-- R100, R101: INIT pulses RST low for at least 20 ms, sends `INIT_SEQ` as command bytes, makes the shadow cursor
invalid and sets INIT_DONE; a second INIT is flagged and still executes. The microsecond as the unit and the same hold at
every INIT are the model's choice (log 6, DESIGN CHOICE). -/
def Obligations.InitResult : Prop :=
  20000 ≤ rstHold ∧
  ∀ s : State,
    let es := [.set .rst false, .hold rstHold, .set .rst true] ++
      Config.initSeq.flatMap fun b => framedEvents (.command b)
    exec .init s = .next { s with
      pins := pinsAfter s.pins es
      status := { s.status with
        curValid := false, initDone := true, errReinit := s.status.errReinit || s.status.initDone }
      errcode := if s.status.initDone && !s.status.anyError then 0x01 else s.errcode
      shift := if Config.initSeq = [] then s.shift else 0
      bitcnt := if Config.initSeq = [] then s.bitcnt else 0
      trace := s.trace ++ es }

/-- R106, R108, R109: CURSOR in range sends the cursor pair, row first, and sets the shadow; out of range it only passes
the acceptance check. -/
def Obligations.CursorResult : Prop :=
  ∀ (s : State) (row x : Byte),
    (row.toNat < 6 → x.toNat < 84 → exec (.cursor row x) s = .next { s with
      pins := { s.pins with sclk := false, sdin := (cmdSetX x).getLsbD 0, dc := dcCmdLevel }
      status := { s.status with curValid := true, errPreinit := s.status.errPreinit || !s.status.initDone }
      errcode := if s.status.initDone || s.status.anyError then s.errcode else 0x04
      curRow := BitVec.ofNat 3 row.toNat
      curCol := BitVec.ofNat 7 x.toNat
      shift := 0
      bitcnt := 0
      trace := s.trace ++ framedEvents (.command (cmdSetY row)) ++ framedEvents (.command (cmdSetX x)) }) ∧
    (6 ≤ row.toNat ∨ 84 ≤ x.toNat → exec (.cursor row x) s = .next { s with
      status := { s.status with errPreinit := s.status.errPreinit || !s.status.initDone }
      errcode := if s.status.initDone || s.status.anyError then s.errcode else 0x04 })

/-- R110, R111: CLEAR sends the cursor pair of (0, 0) and 504 data bytes of zero; the shadow ends at (0, 0),
valid (the wrap: log 10). -/
def Obligations.ClearResult : Prop :=
  ∀ s : State, exec .clear s = .next { s with
    pins := { s.pins with sclk := false, sdin := false, dc := !dcCmdLevel }
    status := { s.status with curValid := true, errPreinit := s.status.errPreinit || !s.status.initDone }
    errcode := if s.status.initDone || s.status.anyError then s.errcode else 0x05
    curRow := 0
    curCol := 0
    shift := 0
    bitcnt := 0
    trace := s.trace ++ framedEvents (.command (cmdSetY 0)) ++ framedEvents (.command (cmdSetX 0)) ++
      (List.replicate 504 (framedEvents (.data 0x00))).flatten }

/-- R113 to R117: the ROM address of a glyph, the fallback for every other code, the ROM bytes of its columns; no address
above 284 and none of 96..98 is ever made. The code of the fallback character: log 9. -/
def Obligations.GlyphAddressRule : Prop :=
  ∀ c : Byte,
    (0x20 ≤ c.toNat → c.toNat ≤ 0x7E → c.toNat ≠ 0x40 → (glyphAddr c).toNat = (c.toNat - 0x20) * 3) ∧
    (c.toNat < 0x20 ∨ 0x7E < c.toNat ∨ c.toNat = 0x40 →
      (glyphAddr c).toNat = (fallbackChar.toNat - 0x20) * 3) ∧
    ∀ i : Fin 3, ∃ h : (glyphAddr c).toNat + i < 285,
      ((glyphAddr c).toNat + i < 96 ∨ 98 < (glyphAddr c).toNat + i) ∧
      memRead (glyphAddr c + BitVec.ofNat 9 i) = some (Config.glyphRom ⟨(glyphAddr c).toNat + i, h⟩)

/-- R49, R56: the ROM has contents at addresses 0..284 and nowhere else; `none` above is the model's fault (log 13). -/
def Obligations.RomAddressSpace : Prop :=
  ∀ a : RomAddr, (∀ h : a.toNat < 285, memRead a = some (Config.glyphRom ⟨a.toNat, h⟩)) ∧
    (285 ≤ a.toNat → memRead a = none)

/-- R118, R120, R122, R123: CHAR on the surface sends the cursor pair of (row, px), as many of the glyph's three columns
as fit, and the blank if a fourth column fits; the shadow ends after the last data byte, in row-major order; CHAR off the
surface only passes the acceptance check. The column unit is CIDX's; no product wraps. The shadow's wrap from row 5 to
row 0: log 10. -/
def Obligations.CharResult : Prop :=
  ∀ (s : State) (row col ch : Byte),
    let px := if s.cidx then col.toNat * 4 else col.toNat
    (row.toNat < 6 → px < 84 →
      ∃ g : Fin 3 → Byte, (∀ i : Fin 3, memRead (glyphAddr ch + BitVec.ofNat 9 i) = some (g i)) ∧
        let ds := [g 0, g 1, g 2, blankByte].take (84 - px)
        let es := framesEvents (.command (cmdSetY row) :: .command (cmdSetX (BitVec.ofNat 8 px)) :: ds.map .data)
        exec (.char row col ch) s = .next { s with
          pins := pinsAfter s.pins es
          status := { s.status with curValid := true, errPreinit := s.status.errPreinit || !s.status.initDone }
          errcode := if s.status.initDone || s.status.anyError then s.errcode else 0x06
          curRow := BitVec.ofNat 3 ((row.toNat * 84 + px + ds.length) / 84 % 6)
          curCol := BitVec.ofNat 7 ((row.toNat * 84 + px + ds.length) % 84)
          shift := 0
          bitcnt := 0
          raster := none
          trace := s.trace ++ es }) ∧
    (6 ≤ row.toNat ∨ 84 ≤ px → exec (.char row col ch) s = .next { s with
      status := { s.status with errPreinit := s.status.errPreinit || !s.status.initDone }
      errcode := if s.status.initDone || s.status.anyError then s.errcode else 0x06
      raster := none })

/-- R124, R126, R127: LINE draws the characters of its text up to the first 0x00, as many as start on the surface, four
pixel columns apart, each framed as a CHAR at its column; the shadow ends after the last one; CIDX is not written. When
the row is off the surface or there is no character to draw it only passes the acceptance check. The shadow's wrap from
row 5 to row 0: log 10. -/
def Obligations.LineResult : Prop :=
  ∀ (s : State) (row col len : Byte) (text : List Byte),
    let px := if s.cidx then col.toNat * 4 else col.toNat
    let cs := drawnText px len text
    (row.toNat < 6 → cs ≠ [] →
      ∃ g : Byte → Fin 3 → Byte,
        (∀ c, ∀ i : Fin 3, memRead (glyphAddr c + BitVec.ofNat 9 i) = some (g c i)) ∧
        let ds := fun k c => [g c 0, g c 1, g c 2, blankByte].take (84 - (px + 4 * k))
        let es := cs.zipIdx.flatMap fun p => framesEvents (.command (cmdSetY row) ::
          .command (cmdSetX (BitVec.ofNat 8 (px + 4 * p.2))) :: (ds p.2 p.1).map .data)
        let stop := row.toNat * 84 + min (px + 4 * cs.length) 84
        exec (.line row col len text) s = .next { s with
          pins := pinsAfter s.pins es
          status := { s.status with curValid := true, errPreinit := s.status.errPreinit || !s.status.initDone }
          errcode := if s.status.initDone || s.status.anyError then s.errcode else 0x07
          curRow := BitVec.ofNat 3 (stop / 84 % 6)
          curCol := BitVec.ofNat 7 (stop % 84)
          shift := 0
          bitcnt := 0
          raster := none
          trace := s.trace ++ es }) ∧
    (6 ≤ row.toNat ∨ cs = [] → exec (.line row col len text) s = .next { s with
      status := { s.status with errPreinit := s.status.errPreinit || !s.status.initDone }
      errcode := if s.status.initDone || s.status.anyError then s.errcode else 0x07
      raster := none })

/-- R114: a code that is not drawable is drawn exactly as the fallback character, with no flag of its own. -/
def Obligations.UndrawableDrawnAsFallback : Prop :=
  ∀ (s : State) (row col c : Byte), c.toNat < 0x20 ∨ 0x7E < c.toNat ∨ c.toNat = 0x40 →
    exec (.char row col c) s = exec (.char row col fallbackChar) s

/-- R128: in pixel columns and after INIT, a LINE is the CHAR of its first character followed by the LINE of the rest
four columns further. -/
def Obligations.LineIsCharThenLine : Prop :=
  ∀ (s t : State) (row col len c : Byte) (cs : List Byte),
    s.cidx = false → s.status.initDone = true → c ≠ 0x00 → col.toNat < 84 → len.toNat = cs.length + 1 →
    exec (.char row col c) s = .next t →
    exec (.line row col len (c :: cs)) s = exec (.line row (col + 4) (len - 1) cs) t

/-! ## Errors and whole-machine rules -/

/-- R137 to R139, R144: what the acceptance of a request does to the error bits and ERRCODE; at most one bit is newly
set. -/
def Obligations.AcceptanceErrors : Prop :=
  ∀ (i : Instr) (s t : State), exec i s = .next t →
    t.status.errPreinit = (s.status.errPreinit || (isProtocol i && !s.status.initDone)) ∧
    t.status.errReinit = (s.status.errReinit || (decide (i = .init) && s.status.initDone)) ∧
    t.status.errBadop = (s.status.errBadop || isReserved i) ∧
    t.errcode =
      if s.status.anyError = false ∧ (isReserved i = true ∨ (i = .init ∧ s.status.initDone = true) ∨
        (isProtocol i = true ∧ s.status.initDone = false)) then i.opcode
      else s.errcode

/-- R154, R161, R162: no error bit is set after a request exactly when none was set before and the request is used as the
spec asks: INIT first and once, no reserved opcode. -/
def Obligations.NoErrorMeansCorrectUse : Prop :=
  ∀ (i : Instr) (s t : State), exec i s = .next t →
    (t.noErrors = true ↔
      s.noErrors = true ∧ isReserved i = false ∧ (isProtocol i = true → s.status.initDone = true) ∧
        (i = .init → s.status.initDone = false))

/-- R32, R37: no step clears an error bit or rewrites a recorded ERRCODE, unless block reset is asserted or held. -/
def Obligations.ErrorsSticky : Prop :=
  ∀ s t : State, s.resetN = true → (∀ rest, s.host ≠ .driveResetN false :: rest) → step s = .next t →
    (s.status.errPreinit = true → t.status.errPreinit = true) ∧
    (s.status.errReinit = true → t.status.errReinit = true) ∧
    (s.status.errBadop = true → t.status.errBadop = true) ∧
    (s.status.anyError = true → t.errcode = s.errcode)

/-- R45, R30, R34, R101, R125: which request's meaning writes which state. INIT_DONE and RST are INIT's, CIDX is
WRCTRL's, the shadow cursor is the protocol requests' and INIT's; the error record aside, no meaning writes anything else
but the pins, the trace and its own working state. BUSY, which R45 and R29 give to every request, and `RQBUF` are written
around `exec`, by `acceptByte` and `complete`: `StepAcceptsByte` and `StepRunsPendingRequest` state these writes. -/
def Obligations.WritersOfState : Prop :=
  ∀ (i : Instr) (s t : State), exec i s = .next t →
    (i ≠ .init → t.status.initDone = s.status.initDone ∧ t.pins.rst = s.pins.rst) ∧
    (i = .init → t.status.initDone = true ∧ t.pins.rst = true) ∧
    ((∀ v, i ≠ .wrctrl v) → t.cidx = s.cidx) ∧
    (movesCursor i = false →
      t.status.curValid = s.status.curValid ∧ t.curRow = s.curRow ∧ t.curCol = s.curCol ∧ t.pins = s.pins ∧
        t.trace = s.trace) ∧
    t.status.busy = s.status.busy ∧ t.rqbuf = s.rqbuf ∧ t.resetN = s.resetN ∧ t.host = s.host ∧
    t.lastRead = s.lastRead ∧ t.earlier = s.earlier ∧ t.draws = s.draws

/-- R171: the number of events of every request. -/
def Obligations.EventCounts : Prop :=
  ∀ (i : Instr) (s t : State), exec i s = .next t → t.trace.length = s.trace.length + eventCount s.cidx i

/-! ## Register reads -/

/-- R135, R23, R38: the byte of every register while BUSY = 0; the read changes nothing but the host's record of it. -/
def Obligations.RegisterReads : Prop :=
  (∀ s : State, s.status.busy = false →
    (∀ k : Fin 8, (readRegister 0 s).getLsbD k =
      [s.status.busy, s.status.initDone, s.status.curValid, s.status.errPreinit, s.status.errReinit,
        s.status.errBadop, s.pins.dc, false][k]) ∧
    readRegister 1 s = (if s.cidx then 0x01 else 0x00) ∧
    (readRegister 2 s).toNat = s.curRow.toNat ∧
    (readRegister 3 s).toNat = s.curCol.toNat ∧
    readRegister 4 s = s.errcode ∧
    readRegister 5 s = 0x00 ∧ readRegister 6 s = 0x00 ∧ readRegister 7 s = 0x00) ∧
  (∀ (s : State) (a : RegAddr) (rest : List HostAction),
    s.resetN = true → s.status.busy = false → s.host = .read a :: rest →
    step s = .next { s with host := rest, lastRead := some (a, readRegister a s) })

/-- R166: a read while BUSY. BUSY reads 1, INIT_DONE as of acceptance, the error bits and ERRCODE as the acceptance check
of the pending request leaves them, CTRL exactly; the fixed-zero bits of STATUS, CURROW and CURCOL read 0; the read
changes nothing of the block. CURROW, CURCOL, CUR_VALID and MODE are free values (log 11), of which nothing is said; that
the error bits show the check done is log 3. -/
def Obligations.ReadWhileBusy : Prop :=
  ∀ (s t : State) (i : Instr), s.status.busy = true → decode s.rqbuf = .ok (i, []) → exec i s = .next t →
    (readRegister 0 s).getLsbD 0 = true ∧
    (readRegister 0 s).getLsbD 1 = s.status.initDone ∧
    (readRegister 0 s).getLsbD 3 = t.status.errPreinit ∧
    (readRegister 0 s).getLsbD 4 = t.status.errReinit ∧
    (readRegister 0 s).getLsbD 5 = t.status.errBadop ∧
    (readRegister 0 s).getLsbD 7 = false ∧
    readRegister 1 s = (if s.cidx then 0x01 else 0x00) ∧
    (readRegister 2 s).toNat < 8 ∧ (readRegister 3 s).toNat < 128 ∧
    readRegister 4 s = t.errcode ∧
    ∀ (a : RegAddr) (rest : List HostAction), s.resetN = true → s.host = .read a :: rest →
      step s = .next { s with host := rest, lastRead := some (a, readRegister a s), draws := s.draws + 1 }

/-! ## The reference receiver

Its behaviour where R64 to R66 and R157 are open is the model's choice (log 20). -/

/-- R14: the wire trace leaves the pins at the levels of the trace; none of its writes has the level its pin already has;
of the trace, every hold and every write that changes a level is kept, in order, and every write of a level the pin
already has is removed. -/
def Obligations.WireTraceLevels : Prop :=
  (∀ (p : Pins) (es : List Event),
    pinsAfter p (wireTrace p es) = pinsAfter p es ∧ wireTrace p (wireTrace p es) = wireTrace p es) ∧
  (∀ (p : Pins) (es xs ys : List Event) (pin : Pin) (v : Bool),
    wireTrace p es = xs ++ .set pin v :: ys → (pinsAfter p xs).get pin ≠ v) ∧
  (∀ (p : Pins) (xs ys : List Event),
    (∀ d, wireTrace p (xs ++ .hold d :: ys) = wireTrace p xs ++ .hold d :: wireTrace (pinsAfter p xs) ys) ∧
    ∀ (pin : Pin) (v : Bool),
      ((pinsAfter p xs).get pin ≠ v → wireTrace p (xs ++ .set pin v :: ys) =
        wireTrace p xs ++ .set pin v :: wireTrace ((pinsAfter p xs).put pin v) ys) ∧
      ((pinsAfter p xs).get pin = v → wireTrace p (xs ++ .set pin v :: ys) =
        wireTrace p xs ++ wireTrace (pinsAfter p xs) ys))

/-- R14, R66: the reference receiver cannot tell a trace from its wire trace. -/
def Obligations.ReceiverSeesWireTrace : Prop :=
  ∀ (r : Receiver) (es : List Event), (r.pins.rst = false → r = r.lost) →
    r.run (wireTrace r.pins es) = r.run es

/-- R31: the block's shadow cursor is the device cursor whenever it is valid. A receiver that tracks the block before a
request tracks it after, for every request; and the shadow stays on the surface. -/
def Obligations.ShadowTracksReceiver : Prop :=
  ∀ (i : Instr) (r : Receiver) (s t : State) (es : List Event),
    Tracks r s → (s.status.curValid = true → s.curRow.toNat < 6 ∧ s.curCol.toNat < 84) →
    exec i s = .next t → t.trace = s.trace ++ es →
    Tracks (r.request i es) t ∧ (t.status.curValid = true → t.curRow.toNat < 6 ∧ t.curCol.toNat < 84)

/-- R68: after CLEAR every one of the 504 bytes of the display memory is 0x00. With no error bit set at the end (R154). -/
def Obligations.ClearBlanksDisplay : Prop :=
  ∀ (r : Receiver) (s t : State) (es : List Event),
    Listening r s → exec .clear s = .next t → t.noErrors = true → t.trace = s.trace ++ es →
    ∀ a, a < 504 → readCell (r.request .clear es).mem a = some 0x00

/-- R118, R132: what CHAR does to the display: column i of the glyph at pixel column px + i and the blank at px + 3, as
far as they are on the surface, in the requested row; every other byte as before; off the surface, nothing. With no error
bit set at the end (R154). -/
def Obligations.CharOnDisplay : Prop :=
  ∀ (r : Receiver) (s t : State) (es : List Event) (row col ch : Byte),
    Listening r s → exec (.char row col ch) s = .next t → t.noErrors = true → t.trace = s.trace ++ es →
    let px := if s.cidx then col.toNat * 4 else col.toNat
    let m := (r.request (.char row col ch) es).mem
    (row.toNat < 6 → ∀ i : Fin 3, px + i < 84 →
      readCell m (row.toNat * 84 + (px + i)) = memRead (glyphAddr ch + BitVec.ofNat 9 i)) ∧
    (row.toNat < 6 → px + 3 < 84 → readCell m (row.toNat * 84 + (px + 3)) = some blankByte) ∧
    (∀ a, ¬ (row.toNat < 6 ∧ a / 84 = row.toNat ∧ px ≤ a % 84 ∧ a % 84 < px + 4) →
      readCell m a = readCell r.mem a)

/-- R124, R126, R128, R132: what LINE does to the display: every drawn character's columns and the blank after them at
their place in the requested row, as far as they are on the surface; every byte of another row, or left or right of the
line, as before; nothing wraps to the next row. With no error bit set at the end (R154). -/
def Obligations.LineOnDisplay : Prop :=
  ∀ (r : Receiver) (s t : State) (es : List Event) (row col len : Byte) (text : List Byte),
    Listening r s → exec (.line row col len text) s = .next t → t.noErrors = true → t.trace = s.trace ++ es →
    let px := if s.cidx then col.toNat * 4 else col.toNat
    let m := (r.request (.line row col len text) es).mem
    (row.toNat < 6 → ∀ (k : Nat) (c : Byte), (drawnText px len text)[k]? = some c →
      (∀ i : Fin 3, px + 4 * k + i < 84 →
        readCell m (row.toNat * 84 + (px + 4 * k + i)) = memRead (glyphAddr c + BitVec.ofNat 9 i)) ∧
      (px + 4 * k + 3 < 84 → readCell m (row.toNat * 84 + (px + 4 * k + 3)) = some blankByte)) ∧
    (∀ a, ¬ (row.toNat < 6 ∧ a / 84 = row.toNat ∧ px ≤ a % 84 ∧
        a % 84 < px + 4 * (drawnText px len text).length) →
      readCell m a = readCell r.mem a)

/-- The display memory of the reference receiver keeps its canonical form over every event, and a write changes the
written byte and no other. -/
def Obligations.DisplayMemoryCanonical : Prop :=
  (∀ (r : Receiver) (es : List Event), Memory.wf r.mem = true → Memory.wf (r.run es).mem = true) ∧
  (∀ (m : DisplayMemory) (a a' : Nat) (b : Byte),
    readCell (writeCell m a b) a' = if a' = a then some b else readCell m a')

/-- R65, R96, R164: after CMD, whatever its byte, the display memory is as before and the device cursor is unknown; after
INIT the device cursor is unknown. With the cursor unknown, the byte of a DATA lands at a place nothing determines, so no
byte of the display memory is known after it (log 20). The claims about the display after CMD and DATA take no error bit
set at the end (R154). -/
def Obligations.RawCommandsLoseCursor : Prop :=
  ∀ (r : Receiver) (s t : State) (es : List Event), Listening r s → t.trace = s.trace ++ es →
    (∀ b, exec (.cmd b) s = .next t → t.noErrors = true →
      (r.request (.cmd b) es).mem = r.mem ∧ (r.request (.cmd b) es).y = none ∧ (r.request (.cmd b) es).x = none) ∧
    (exec .init s = .next t → (r.request .init es).y = none ∧ (r.request .init es).x = none) ∧
    (∀ b, exec (.data b) s = .next t → t.noErrors = true → r.y = none ∨ r.x = none →
      ∀ a, readCell (r.request (.data b) es).mem a = none)

/-- R64, R97: with the device cursor known and on the surface, DATA writes its byte there and no other byte, and the
cursor is at the next position in row-major order (the wrap: log 10). With no error bit set at the end (R154). -/
def Obligations.DataOnDisplay : Prop :=
  ∀ (r : Receiver) (s t : State) (es : List Event) (b : Byte) (y x : Nat),
    Listening r s → r.y = some y → r.x = some x → y < 6 → x < 84 →
    exec (.data b) s = .next t → t.noErrors = true → t.trace = s.trace ++ es →
    ∃ y' x', (r.request (.data b) es).y = some y' ∧ (r.request (.data b) es).x = some x' ∧ y' < 6 ∧ x' < 84 ∧
      y' * 84 + x' = (y * 84 + x + 1) % 504 ∧
      ∀ a, readCell (r.request (.data b) es).mem a = if a = y * 84 + x then some b else readCell r.mem a

/-- R24: a level of `RESET_N` that it already has: while high nothing but the host's list changes, while low the block
keeps its reset values. A held block whose host has nothing to do keeps them too. That redriving a level changes nothing
is log 16 (DEDUCED), that a held block with nothing to do answers the same state is log 17 (DESIGN CHOICE). -/
def Obligations.ResetLevelRedriven : Prop :=
  (∀ s rest, s.resetN = true → s.host = .driveResetN true :: rest → step s = .next { s with host := rest }) ∧
  (∀ s, s.resetN = false →
    (∀ rest, s.host = .driveResetN false :: rest →
      step s = .next { toResetValues s with host := rest, resetN := false }) ∧
    (s.host = [] → step s = .next (toResetValues s)))
end

