-- ==== Sys2Proof/Laws/Decode.lean ====
section
/-! SUPPORT. Lemmas of the decoder and the request length (R69 to R71, R76). -/

namespace Sys2Proof.Laws

theorem decodeOperands_reserved {op : Byte} (h : 9 ≤ op.toNat) (rest : List Byte) :
    decodeOperands op rest = some (.reserved op, rest) := by
  unfold decodeOperands
  split <;> first | omega | rfl

theorem requestLength_reserved {op : Byte} (h : 9 ≤ op.toNat) (rest : List Byte) :
    requestLength (op :: rest) = some 1 := by
  unfold requestLength
  simp only
  split <;> first | omega | rfl

theorem decode_cons (op : Byte) (rest : List Byte) : decode (op :: rest) =
    match decodeOperands op rest with
    | some r => .ok r
    | none => .error (.missingOperands op) := rfl

theorem decodeOperands_line (row col len : Byte) (bs : List Byte) :
    decodeOperands 0x07 (row :: col :: len :: bs) =
      if len.toNat ≤ bs.length then some (.line row col len (bs.take len.toNat), bs.drop len.toNat) else none := rfl

/-- A byte is one of the nine defined opcodes or a reserved one (R70). -/
theorem opcode_cases (op : Byte) : 9 ≤ op.toNat ∨
    op = 0 ∨ op = 1 ∨ op = 2 ∨ op = 3 ∨ op = 4 ∨ op = 5 ∨ op = 6 ∨ op = 7 ∨ op = 8 := by
  revert op
  decide

theorem isReservedOpcode_iff (op : Byte) : isReservedOpcode op = true ↔ 9 ≤ op.toNat := by
  simp [isReservedOpcode]

theorem lineTextFits_iff (len : Byte) (text : List Byte) :
    lineTextFits len text = true ↔ text.length = len.toNat := by
  simp [lineTextFits]

end Sys2Proof.Laws
end

