-- ==== Sys2Proof/Laws/State.lean ====
section
/-! SUPPORT. One lemma per field and update of the shared operations, true by rfl, so that no later proof unfolds a record
update; and the two normal forms the spec lemmas are stated in: `afterEvents` and `idleTransport`. -/

namespace Sys2Proof.Laws

open Sys2Proof.Machine

/-- The state after a list of events: pins and trace, nothing else. -/
def afterEvents (es : List Event) (s : State) : State :=
  { s with pins := pinsAfter s.pins es, trace := s.trace ++ es }

/-- The state with the transport idle (R92). -/
def idleTransport (s : State) : State := { s with shift := 0, bitcnt := 0 }

section afterEvents
variable (es : List Event) (s : State)
@[simp] theorem afterEvents_pins : (afterEvents es s).pins = pinsAfter s.pins es := rfl
@[simp] theorem afterEvents_trace : (afterEvents es s).trace = s.trace ++ es := rfl
@[simp] theorem afterEvents_status : (afterEvents es s).status = s.status := rfl
@[simp] theorem afterEvents_cidx : (afterEvents es s).cidx = s.cidx := rfl
@[simp] theorem afterEvents_curRow : (afterEvents es s).curRow = s.curRow := rfl
@[simp] theorem afterEvents_curCol : (afterEvents es s).curCol = s.curCol := rfl
@[simp] theorem afterEvents_errcode : (afterEvents es s).errcode = s.errcode := rfl
@[simp] theorem afterEvents_shift : (afterEvents es s).shift = s.shift := rfl
@[simp] theorem afterEvents_bitcnt : (afterEvents es s).bitcnt = s.bitcnt := rfl
@[simp] theorem afterEvents_rqbuf : (afterEvents es s).rqbuf = s.rqbuf := rfl
@[simp] theorem afterEvents_raster : (afterEvents es s).raster = s.raster := rfl
@[simp] theorem afterEvents_resetN : (afterEvents es s).resetN = s.resetN := rfl
@[simp] theorem afterEvents_host : (afterEvents es s).host = s.host := rfl
@[simp] theorem afterEvents_lastRead : (afterEvents es s).lastRead = s.lastRead := rfl
@[simp] theorem afterEvents_earlier : (afterEvents es s).earlier = s.earlier := rfl
@[simp] theorem afterEvents_draws : (afterEvents es s).draws = s.draws := rfl
end afterEvents

section idleTransport
variable (s : State)
@[simp] theorem idleTransport_pins : (idleTransport s).pins = s.pins := rfl
@[simp] theorem idleTransport_trace : (idleTransport s).trace = s.trace := rfl
@[simp] theorem idleTransport_status : (idleTransport s).status = s.status := rfl
@[simp] theorem idleTransport_cidx : (idleTransport s).cidx = s.cidx := rfl
@[simp] theorem idleTransport_curRow : (idleTransport s).curRow = s.curRow := rfl
@[simp] theorem idleTransport_curCol : (idleTransport s).curCol = s.curCol := rfl
@[simp] theorem idleTransport_errcode : (idleTransport s).errcode = s.errcode := rfl
@[simp] theorem idleTransport_shift : (idleTransport s).shift = 0 := rfl
@[simp] theorem idleTransport_bitcnt : (idleTransport s).bitcnt = 0 := rfl
@[simp] theorem idleTransport_rqbuf : (idleTransport s).rqbuf = s.rqbuf := rfl
@[simp] theorem idleTransport_raster : (idleTransport s).raster = s.raster := rfl
@[simp] theorem idleTransport_resetN : (idleTransport s).resetN = s.resetN := rfl
@[simp] theorem idleTransport_host : (idleTransport s).host = s.host := rfl
@[simp] theorem idleTransport_lastRead : (idleTransport s).lastRead = s.lastRead := rfl
@[simp] theorem idleTransport_earlier : (idleTransport s).earlier = s.earlier := rfl
@[simp] theorem idleTransport_draws : (idleTransport s).draws = s.draws := rfl
end idleTransport

/-! Pins and events. -/

@[simp] theorem pinsAfter_nil (p : Pins) : pinsAfter p [] = p := rfl

@[simp] theorem pinsAfter_set (p : Pins) (pin : Pin) (v : Bool) (es : List Event) :
    pinsAfter p (.set pin v :: es) = pinsAfter (p.put pin v) es := rfl

@[simp] theorem pinsAfter_hold (p : Pins) (d : Nat) (es : List Event) :
    pinsAfter p (.hold d :: es) = pinsAfter p es := rfl

theorem pinsAfter_append (p : Pins) (es fs : List Event) :
    pinsAfter p (es ++ fs) = pinsAfter (pinsAfter p es) fs := by
  simp [pinsAfter, List.foldl_append]

@[simp] theorem put_sclk (p : Pins) (v : Bool) : p.put .sclk v = { p with sclk := v } := rfl
@[simp] theorem put_sdin (p : Pins) (v : Bool) : p.put .sdin v = { p with sdin := v } := rfl
@[simp] theorem put_dc (p : Pins) (v : Bool) : p.put .dc v = { p with dc := v } := rfl
@[simp] theorem put_rst (p : Pins) (v : Bool) : p.put .rst v = { p with rst := v } := rfl

theorem afterEvents_append (es fs : List Event) (s : State) :
    afterEvents fs (afterEvents es s) = afterEvents (es ++ fs) s := by
  simp [afterEvents, pinsAfter_append]

theorem afterEvents_nil (s : State) : afterEvents [] s = s := by
  simp [afterEvents]

theorem emit_eq (pin : Pin) (v : Bool) (s : State) : emit pin v s = afterEvents [.set pin v] s := rfl

theorem hold_eq (d : Nat) (s : State) : hold d s = afterEvents [.hold d] s := rfl

theorem idleTransport_afterEvents (es : List Event) (s : State) :
    idleTransport (afterEvents es s) = afterEvents es (idleTransport s) := rfl

@[simp] theorem idleTransport_idem (s : State) : idleTransport (idleTransport s) = idleTransport s := rfl

/-! Outcomes. -/

@[simp] theorem andThen_next (s : State) (f : State → Host.Outcome State Fault Refusal) :
    andThen (.next s) f = f s := rfl

theorem andThen_eq_next {o : Host.Outcome State Fault Refusal} {f : State → Host.Outcome State Fault Refusal}
    {t : State} (h : andThen o f = .next t) : ∃ s, o = .next s ∧ f s = .next t := by
  cases o with
  | next s => exact ⟨s, rfl, h⟩
  | fault r => cases h
  | refused r => cases h

/-! The working state of the rasterizer. -/

@[simp] theorem startRaster_px (n : Nat) (s : State) : (startRaster n s).px = n := rfl
@[simp] theorem startRaster_textIdx (n : Nat) (s : State) : (startRaster n s).textIdx = 0 := rfl
@[simp] theorem startRaster_raster (n : Nat) (s : State) : (startRaster n s).raster = some ⟨n, 0, 0⟩ := rfl
@[simp] theorem startRaster_status (n : Nat) (s : State) : (startRaster n s).status = s.status := rfl
@[simp] theorem startRaster_cidx (n : Nat) (s : State) : (startRaster n s).cidx = s.cidx := rfl

/-! The acceptance check and the error bits. -/

@[simp] theorem raiseErr_pins (e : ErrorCode) (op : Byte) (s : State) : (raiseErr e op s).pins = s.pins := rfl
@[simp] theorem raiseErr_trace (e : ErrorCode) (op : Byte) (s : State) : (raiseErr e op s).trace = s.trace := rfl
@[simp] theorem raiseErr_cidx (e : ErrorCode) (op : Byte) (s : State) : (raiseErr e op s).cidx = s.cidx := rfl
@[simp] theorem raiseErr_curRow (e : ErrorCode) (op : Byte) (s : State) : (raiseErr e op s).curRow = s.curRow := rfl
@[simp] theorem raiseErr_curCol (e : ErrorCode) (op : Byte) (s : State) : (raiseErr e op s).curCol = s.curCol := rfl
@[simp] theorem raiseErr_rqbuf (e : ErrorCode) (op : Byte) (s : State) : (raiseErr e op s).rqbuf = s.rqbuf := rfl
@[simp] theorem raiseErr_raster (e : ErrorCode) (op : Byte) (s : State) : (raiseErr e op s).raster = s.raster := rfl
@[simp] theorem raiseErr_errcode (e : ErrorCode) (op : Byte) (s : State) :
    (raiseErr e op s).errcode = if s.status.anyError then s.errcode else op := rfl
@[simp] theorem raiseErr_status (e : ErrorCode) (op : Byte) (s : State) :
    (raiseErr e op s).status = s.status.setError e := rfl

theorem accept_protocol {op : Byte} (h : 2 ≤ op.toNat ∧ op.toNat ≤ 7) (s : State) :
    accept op s = afterProtocolCheck op s := by
  have h9 : ¬ 9 ≤ op.toNat := by omega
  have h1 : ¬ op.toNat = 1 := by omega
  obtain ⟨_, ⟨_, i, _, _, _, _⟩, _, _, _, _, _, _, _, _, _, _, _, _, _, _⟩ := s
  cases i <;> simp [accept, h9, h1, h, afterProtocolCheck, raiseErr, Status.setError]

theorem accept_init (s : State) : accept 0x01 s = afterInitCheck s := by
  obtain ⟨_, ⟨_, i, _, _, _, _⟩, _, _, _, _, _, _, _, _, _, _, _, _, _, _⟩ := s
  cases i <;> simp [accept, afterInitCheck, raiseErr, Status.setError]
  split <;> simp_all

@[simp] theorem accept_nop (s : State) : accept 0x00 s = s := rfl

@[simp] theorem accept_wrctrl (s : State) : accept 0x08 s = s := rfl

theorem accept_reserved {op : Byte} (h : 9 ≤ op.toNat) (s : State) : accept op s = raiseErr .badop op s := by
  simp [accept, h]

section afterProtocolCheck
variable (op : Byte) (s : State)
@[simp] theorem afterProtocolCheck_pins : (afterProtocolCheck op s).pins = s.pins := rfl
@[simp] theorem afterProtocolCheck_trace : (afterProtocolCheck op s).trace = s.trace := rfl
@[simp] theorem afterProtocolCheck_cidx : (afterProtocolCheck op s).cidx = s.cidx := rfl
@[simp] theorem afterProtocolCheck_curRow : (afterProtocolCheck op s).curRow = s.curRow := rfl
@[simp] theorem afterProtocolCheck_curCol : (afterProtocolCheck op s).curCol = s.curCol := rfl
@[simp] theorem afterProtocolCheck_curValid :
    (afterProtocolCheck op s).status.curValid = s.status.curValid := rfl
@[simp] theorem afterProtocolCheck_initDone :
    (afterProtocolCheck op s).status.initDone = s.status.initDone := rfl
@[simp] theorem afterProtocolCheck_raster : (afterProtocolCheck op s).raster = s.raster := rfl
end afterProtocolCheck

end Sys2Proof.Laws
end

