-- ==== Sys2Proof/Laws/Transport.lean ====
section
/-! SUPPORT. The spec lemmas of the transport and the framer: everything `transmit`, `send_command` and `send_data` can
do, in closed form. -/

namespace Sys2Proof.Laws

open Sys2Proof.Machine

theorem byteEvents_eq (b : Byte) : byteEvents b =
    bitEvents (b.getLsbD 7) ++ bitEvents (b.getLsbD 6) ++ bitEvents (b.getLsbD 5) ++ bitEvents (b.getLsbD 4) ++
    bitEvents (b.getLsbD 3) ++ bitEvents (b.getLsbD 2) ++ bitEvents (b.getLsbD 1) ++ bitEvents (b.getLsbD 0) := by
  simp [byteEvents, List.range, List.range.loop]

theorem shiftBit_eq (s : State) : shiftBit s =
    { afterEvents (bitEvents (s.shift.getLsbD 7)) s with shift := s.shift <<< 1, bitcnt := s.bitcnt - 1 } := by
  simp [shiftBit, emit_eq, afterEvents_append, bitEvents]

/-- `transmit(b)`: the 24 events of the byte, and the transport idle (R83, R84, R91, R92). -/
theorem transmit_eq (b : Byte) (s : State) :
    transmit b s = afterEvents (byteEvents b) (idleTransport s) := by
  simp [transmit, shiftOut, shiftBit_eq, afterEvents, idleTransport, byteEvents_eq, pinsAfter_append]

@[simp] theorem pinsAfter_byteEvents (p : Pins) (b : Byte) :
    pinsAfter p (byteEvents b) = { p with sclk := false, sdin := b.getLsbD 0 } := by
  simp [byteEvents_eq, bitEvents]

@[simp] theorem byteEvents_length (b : Byte) : (byteEvents b).length = 24 := by
  simp [byteEvents_eq, bitEvents]

@[simp] theorem pinsAfter_command (p : Pins) (b : Byte) :
    pinsAfter p (framedEvents (.command b)) =
      { p with sclk := false, sdin := b.getLsbD 0, dc := dcCmdLevel } := by
  simp [framedEvents]

@[simp] theorem pinsAfter_data (p : Pins) (b : Byte) :
    pinsAfter p (framedEvents (.data b)) =
      { p with sclk := false, sdin := b.getLsbD 0, dc := !dcCmdLevel } := by
  simp [framedEvents]

@[simp] theorem framedEvents_length (f : Framed) : (framedEvents f).length = 25 := by
  cases f <;> simp [framedEvents]

@[simp] theorem framesEvents_nil : framesEvents [] = [] := rfl

@[simp] theorem framesEvents_cons (f : Framed) (fs : List Framed) :
    framesEvents (f :: fs) = framedEvents f ++ framesEvents fs := rfl

@[simp] theorem framesEvents_append (fs gs : List Framed) :
    framesEvents (fs ++ gs) = framesEvents fs ++ framesEvents gs := by
  simp [framesEvents]

theorem framesEvents_length (fs : List Framed) : (framesEvents fs).length = 25 * fs.length := by
  induction fs with
  | nil => rfl
  | cons f fs ih => simp [ih]; omega

/-- Framed bytes do not touch `RST` (R89, R101). -/
theorem pinsAfter_frames_rst (fs : List Framed) (p : Pins) : (pinsAfter p (framesEvents fs)).rst = p.rst := by
  induction fs generalizing p with
  | nil => rfl
  | cons f fs ih => cases f <;> simp [pinsAfter_append, ih]

/-- `SCLK` idles low after framed bytes (R86). -/
theorem pinsAfter_frames_sclk (fs : List Framed) (p : Pins) (h : p.sclk = false) :
    (pinsAfter p (framesEvents fs)).sclk = false := by
  induction fs generalizing p with
  | nil => exact h
  | cons f fs ih => cases f <;> simp [pinsAfter_append, ih]

/-- `send_command(b)` (R93). -/
theorem sendCommand_eq (b : Byte) (s : State) :
    sendCommand b s = afterEvents (framedEvents (.command b)) (idleTransport s) := by
  simp [sendCommand, transmit_eq, emit_eq, idleTransport_afterEvents, afterEvents_append, framedEvents]

/-- The shadow row after one advance (R95). -/
def advancedRow (valid : Bool) (row : BitVec 3) (col : BitVec 7) : BitVec 3 :=
  if valid ∧ col.toNat = width - 1 then (if row.toNat = rows - 1 then 0 else row + 1) else row

/-- The shadow column after one advance (R95). -/
def advancedCol (valid : Bool) (col : BitVec 7) : BitVec 7 :=
  if valid then (if col.toNat = width - 1 then 0 else col + 1) else col

/-- `advance_cursor()` writes the shadow cursor and nothing else (R95). -/
theorem advanceCursor_eq (s : State) : advanceCursor s =
    { s with
      curRow := advancedRow s.status.curValid s.curRow s.curCol
      curCol := advancedCol s.status.curValid s.curCol } := by
  unfold advanceCursor advancedRow advancedCol
  by_cases hv : s.status.curValid = true <;> by_cases hc : s.curCol.toNat = width - 1 <;> simp [hv, hc]

theorem advanceCursor_afterEvents (es : List Event) (s : State) :
    advanceCursor (afterEvents es s) = afterEvents es (advanceCursor s) := by
  simp [advanceCursor_eq, afterEvents]

theorem advanceCursor_idleTransport (s : State) :
    advanceCursor (idleTransport s) = idleTransport (advanceCursor s) := by
  simp [advanceCursor_eq, idleTransport]

/-- `send_data(b)` (R94). -/
theorem sendData_eq (b : Byte) (s : State) :
    sendData b s = afterEvents (framedEvents (.data b)) (idleTransport (advanceCursor s)) := by
  simp [sendData, transmit_eq, emit_eq, idleTransport_afterEvents, afterEvents_append, framedEvents,
    advanceCursor_afterEvents, advanceCursor_idleTransport]

section advanceCursor
variable (s : State)

@[simp] theorem advanceCursor_pins : (advanceCursor s).pins = s.pins := by rw [advanceCursor_eq]
@[simp] theorem advanceCursor_trace : (advanceCursor s).trace = s.trace := by rw [advanceCursor_eq]
@[simp] theorem advanceCursor_status : (advanceCursor s).status = s.status := by rw [advanceCursor_eq]
@[simp] theorem advanceCursor_raster : (advanceCursor s).raster = s.raster := by rw [advanceCursor_eq]

/-- A valid shadow on the surface moves to the next position in row-major order, from the last back to the first
(R95). -/
theorem advanceCursor_position (hv : s.status.curValid = true) (hr : s.curRow.toNat < rows)
    (hc : s.curCol.toNat < width) :
    (advanceCursor s).curRow.toNat = (s.curRow.toNat * width + s.curCol.toNat + 1) / width % rows ∧
      (advanceCursor s).curCol.toNat = (s.curRow.toNat * width + s.curCol.toNat + 1) % width := by
  simp only [advanceCursor_eq, advancedRow, advancedCol, hv, rows, width, true_and, if_true] at *
  by_cases h1 : s.curCol.toNat = 83 <;> by_cases h2 : s.curRow.toNat = 5 <;>
    simp [h1, h2, BitVec.toNat_add] <;> omega

end advanceCursor

/-- `send_command` of a list (R100, R106). -/
theorem sendCommands_eq (bs : List Byte) (s : State) :
    sendCommands bs s =
      afterEvents (framesEvents (bs.map .command)) (if bs = [] then s else idleTransport s) := by
  induction bs generalizing s with
  | nil => simp [sendCommands, afterEvents_nil]
  | cons b bs ih =>
    simp only [sendCommands, ih, sendCommand_eq]
    cases bs <;> simp [afterEvents_append, idleTransport_afterEvents]

/-- A shadow cursor after n data bytes: n advances (R95). -/
def advanceTimes : Nat → State → State
  | 0, s => s
  | n + 1, s => advanceTimes n (advanceCursor s)

/-- `send_data` of a list, first byte first. -/
def sendDatas : List Byte → State → State
  | [], s => s
  | b :: bs, s => sendDatas bs (sendData b s)

theorem sendDataTimes_eq (n : Nat) (b : Byte) (s : State) :
    sendDataTimes n b s = sendDatas (List.replicate n b) s := by
  induction n generalizing s with
  | zero => rfl
  | succ n ih => simp [sendDataTimes, sendDatas, List.replicate_succ, ih]

theorem advanceTimes_afterEvents (n : Nat) (es : List Event) (s : State) :
    advanceTimes n (afterEvents es s) = afterEvents es (advanceTimes n s) := by
  induction n generalizing s with
  | zero => rfl
  | succ n ih => simp [advanceTimes, advanceCursor_afterEvents, ih]

theorem advanceTimes_idleTransport (n : Nat) (s : State) :
    advanceTimes n (idleTransport s) = idleTransport (advanceTimes n s) := by
  induction n generalizing s with
  | zero => rfl
  | succ n ih => simp [advanceTimes, advanceCursor_idleTransport, ih]

theorem sendDatas_eq (bs : List Byte) (s : State) :
    sendDatas bs s = afterEvents (framesEvents (bs.map .data))
      (advanceTimes bs.length (if bs = [] then s else idleTransport s)) := by
  induction bs generalizing s with
  | nil => simp [sendDatas, afterEvents_nil, advanceTimes]
  | cons b bs ih =>
    simp only [sendDatas, ih, sendData_eq]
    cases bs <;>
      simp [afterEvents_append, idleTransport_afterEvents, advanceTimes, advanceTimes_afterEvents,
        advanceTimes_idleTransport, advanceCursor_idleTransport]

theorem advanceTimes_frame (n : Nat) (s : State) :
    advanceTimes n s = { s with curRow := (advanceTimes n s).curRow, curCol := (advanceTimes n s).curCol } := by
  induction n generalizing s with
  | zero => rfl
  | succ n ih =>
    rw [advanceTimes, ih]
    simp [advanceCursor_eq]

/-- n advances of a valid shadow on the surface move it n positions in row-major order (R95, R111). -/
theorem advanceTimes_position (n : Nat) (s : State) (hv : s.status.curValid = true) (hr : s.curRow.toNat < rows)
    (hc : s.curCol.toNat < width) :
    (advanceTimes n s).curRow.toNat = (s.curRow.toNat * width + s.curCol.toNat + n) / width % rows ∧
      (advanceTimes n s).curCol.toNat = (s.curRow.toNat * width + s.curCol.toNat + n) % width := by
  induction n generalizing s with
  | zero =>
    simp only [rows, width, advanceTimes] at *
    omega
  | succ n ih =>
    obtain ⟨h1, h2⟩ := advanceCursor_position s hv hr hc
    have := ih (advanceCursor s) (by simpa using hv)
      (by rw [h1]; exact Nat.mod_lt _ (by decide)) (by rw [h2]; exact Nat.mod_lt _ (by decide))
    simp only [rows, width, advanceTimes] at *
    omega

end Sys2Proof.Laws
end

