-- ==== Sys2Proof/Laws/Glyph.lean ====
section
/-! SUPPORT. The spec lemmas of the cursor pair, the glyph ROM address and the column shifter, in closed form. -/

namespace Sys2Proof.Laws

open Sys2Proof.Machine

/-- The shadow cursor set, the transport idle (R106). -/
def placeCursor (r x : Byte) (s : State) : State :=
  { idleTransport s with
    curRow := r.setWidth 3
    curCol := x.setWidth 7
    status := { s.status with curValid := true } }

/-- `set_cursor(r, x)` (R106). -/
theorem setCursor_eq (r x : Byte) (s : State) :
    setCursor r x s = afterEvents (framesEvents (cursorFrames r x)) (placeCursor r x s) := by
  simp [setCursor, cursorPair, sendCommands_eq, cursorFrames, placeCursor, afterEvents, idleTransport]

theorem placeCursor_afterEvents (r x : Byte) (es : List Event) (s : State) :
    placeCursor r x (afterEvents es s) = afterEvents es (placeCursor r x s) := rfl

/-! The glyph ROM. -/

/-- A substituted code is printable and not the gap (R114, R115). -/
theorem subst_range (c : Byte) :
    0x20 ≤ (subst c).toNat ∧ (subst c).toNat ≤ 0x7E ∧ (subst c).toNat ≠ 0x40 := by
  unfold subst
  split
  · rename_i h
    simp [drawable, firstChar, lastChar, gapChar] at h
    exact ⟨h.1.1, h.1.2, fun e => h.2 (BitVec.eq_of_toNat_eq (by simpa using e))⟩
  · decide

theorem glyphAddr_toNat (c : Byte) : (glyphAddr c).toNat = ((subst c).toNat - 0x20) * 3 := by
  have := subst_range c
  simp [glyphAddr, firstChar, glyphCols]
  omega

theorem glyphAddr_add_toNat (c : Byte) (i : Fin 3) :
    (glyphAddr c + BitVec.ofNat 9 i).toNat = ((subst c).toNat - 0x20) * 3 + i := by
  have := subst_range c
  have := i.isLt
  rw [BitVec.toNat_add, glyphAddr_toNat, BitVec.toNat_ofNat]
  omega

/-- `G(c)[i]` (R15, R116). -/
def glyphColumn (c : Byte) (i : Fin 3) : Byte :=
  Config.glyphRom ⟨((subst c).toNat - 0x20) * 3 + i, by have := subst_range c; omega⟩

/-- Every column of every glyph is in the ROM (R49, R115, R116). -/
theorem memRead_glyph (c : Byte) (i : Fin 3) :
    memRead (glyphAddr c + BitVec.ofNat 9 i) = some (glyphColumn c i) := by
  have := subst_range c
  have h : (glyphAddr c + BitVec.ofNat 9 i).toNat < 285 := by rw [glyphAddr_add_toNat]; omega
  rw [memRead, dif_pos h]
  congr 2
  exact Fin.ext (glyphAddr_add_toNat c i)

/-! The column shifter. -/

/-- The data bytes of a glyph at pixel column `px`: its columns and the blank, as many as fit (R118, R120). -/
def glyphData (px : Nat) (c : Byte) : List Byte :=
  [glyphColumn c 0, glyphColumn c 1, glyphColumn c 2, blankByte].take (width - px)

/-- The framed bytes of a glyph (R118, R120). -/
def glyphFrames (row : Byte) (px : Nat) (c : Byte) : List Framed :=
  cursorFrames row (BitVec.ofNat 8 px) ++ (glyphData px c).map .data

theorem glyphData_length (px : Nat) (c : Byte) : (glyphData px c).length = min (width - px) 4 := by
  simp [glyphData]

/-- `draw_glyph` on the surface (R118): the cursor pair, the columns that fit, the blank if it fits. -/
theorem drawGlyph_drawn (row c : Byte) (s : State) (r : Raster) (hs : s.raster = some r) (hr : row.toNat < rows)
    (hx : r.px < width) :
    drawGlyph row c s = .next (afterEvents (framesEvents (glyphFrames row r.px c))
      (advanceTimes (min (width - r.px) 4)
        (placeCursor row (BitVec.ofNat 8 r.px) { s with raster := some { r with colIdx := 3 } }))) := by
  have m0 := memRead_glyph c 0
  have m1 := memRead_glyph c 1
  have m2 := memRead_glyph c 2
  simp only [Fin.isValue, Fin.val_zero, Fin.val_one, Fin.val_two, BitVec.add_zero] at m0 m1 m2
  have hpx : s.px = r.px := by simp [State.px, hs]
  have hcl : ¬ (rows ≤ row.toNat ∨ width ≤ r.px) := by omega
  simp only [width] at hx
  have hw : r.px ≤ 80 ∨ r.px = 81 ∨ r.px = 82 ∨ r.px = 83 := by omega
  rw [drawGlyph, hpx, if_neg hcl]
  rcases hw with h | h | h | h
  · have h0 : r.px < 84 := by omega
    have h1 : r.px + 1 < 84 := by omega
    have h2 : r.px + 2 < 84 := by omega
    have h3 : r.px + 3 < 84 := by omega
    have hm : min (84 - r.px) 4 = 4 := by omega
    have ht : ∀ l : List Byte, l.length = 4 → l.take (84 - r.px) = l := fun l hl =>
      List.take_of_length_le (by omega)
    simp [emitColumns, glyphCols, setCursor_eq, sendData_eq, setColumn, State.px, State.colIdx, afterEvents,
      placeCursor, idleTransport, advanceCursor_eq, hs, m0, m1, m2, width, h0, h1, h2, h3, emitBlank, hm,
      advanceTimes, glyphFrames, glyphData, ht, pinsAfter_append]
  all_goals
    simp [emitColumns, glyphCols, setCursor_eq, sendData_eq, setColumn, State.px, State.colIdx, afterEvents,
      placeCursor, idleTransport, advanceCursor_eq, hs, m0, m1, m2, width, h, emitBlank,
      advanceTimes, glyphFrames, glyphData, pinsAfter_append]

/-- `draw_glyph` off the surface: nothing (R118). -/
theorem drawGlyph_clipped (row c : Byte) (s : State) (r : Raster) (hs : s.raster = some r)
    (h : rows ≤ row.toNat ∨ width ≤ r.px) : drawGlyph row c s = .next s := by
  have hpx : s.px = r.px := by simp [State.px, hs]
  rw [drawGlyph, hpx, if_pos h]

/-- The shadow cursor after a drawn glyph: `min (84 - px) 4` positions after (row, px), in row-major order
(R120, R123, R165). -/
def glyphEndRow (row : Byte) (px : Nat) : BitVec 3 :=
  BitVec.ofNat 3 ((row.toNat * width + px + min (width - px) 4) / width % rows)

/-- The shadow column after a drawn glyph. -/
def glyphEndCol (row : Byte) (px : Nat) : BitVec 7 :=
  BitVec.ofNat 7 ((row.toNat * width + px + min (width - px) 4) % width)

theorem advance_placed (row : Byte) (px n : Nat) (s : State) (hr : row.toNat < rows) (hx : px < width) :
    advanceTimes n (placeCursor row (BitVec.ofNat 8 px) s) =
      { placeCursor row (BitVec.ofNat 8 px) s with
        curRow := BitVec.ofNat 3 ((row.toNat * width + px + n) / width % rows)
        curCol := BitVec.ofNat 7 ((row.toNat * width + px + n) % width) } := by
  have e1 : (placeCursor row (BitVec.ofNat 8 px) s).curRow.toNat = row.toNat := by
    simp only [placeCursor, rows, BitVec.toNat_setWidth] at *; omega
  have e2 : (placeCursor row (BitVec.ofNat 8 px) s).curCol.toNat = px := by
    simp only [placeCursor, width, BitVec.toNat_setWidth, BitVec.toNat_ofNat] at *; omega
  have hp := advanceTimes_position n (placeCursor row (BitVec.ofNat 8 px) s) rfl (by omega) (by omega)
  rw [e1, e2] at hp
  rw [advanceTimes_frame]
  congr 1
  · apply BitVec.eq_of_toNat_eq
    rw [hp.1, BitVec.toNat_ofNat]
    simp only [rows]; omega
  · apply BitVec.eq_of_toNat_eq
    rw [hp.2, BitVec.toNat_ofNat]
    simp only [width]; omega

/-- The state after a drawn glyph, but for the working state. -/
def afterGlyph (row : Byte) (px : Nat) (c : Byte) (s : State) : State :=
  afterEvents (framesEvents (glyphFrames row px c))
    { placeCursor row (BitVec.ofNat 8 px) s with curRow := glyphEndRow row px, curCol := glyphEndCol row px }

theorem drawGlyph_eq (row c : Byte) (s : State) (r : Raster) (hs : s.raster = some r) (hr : row.toNat < rows)
    (hx : r.px < width) :
    drawGlyph row c s = .next (afterGlyph row r.px c { s with raster := some { r with colIdx := 3 } }) := by
  rw [drawGlyph_drawn row c s r hs hr hx, advance_placed _ _ _ _ hr hx]
  rfl

end Sys2Proof.Laws
end

