-- ==== Sys2Proof/Laws/Exec.lean ====
section
/-! SUPPORT. The spec lemma of each meaning: the state it answers, in closed form, on every state and operand. -/

namespace Sys2Proof.Laws

open Sys2Proof.Machine

theorem exec_nop (s : State) : exec .nop s = .next s := rfl

theorem exec_wrctrl (imm8 : Byte) (s : State) :
    exec (.wrctrl imm8) s = .next { s with cidx := imm8.getLsbD 0 } := rfl

theorem exec_reserved (op : Byte) (s : State) : exec (.reserved op) s = .next (raiseErr .badop op s) := rfl

theorem exec_cmd (b : Byte) (s : State) : exec (.cmd b) s =
    .next (afterEvents (framedEvents (.command b)) (idleTransport (invalidateCursor (afterProtocolCheck 0x02 s)))) := by
  show Host.Outcome.next (invalidateCursor (sendCommand b (accept 0x02 s))) = _
  rw [accept_protocol (by decide), sendCommand_eq]
  rfl

theorem exec_data (b : Byte) (s : State) : exec (.data b) s =
    .next (afterEvents (framedEvents (.data b)) (idleTransport (advanceCursor (afterProtocolCheck 0x03 s)))) := by
  show Host.Outcome.next (sendData b (accept 0x03 s)) = _
  rw [accept_protocol (by decide), sendData_eq]

/-- The body of INIT for any sequence and hold (R100, R102). -/
theorem initialise_eq (seq : List Byte) (d : Nat) (s : State) : initialise seq d s =
    afterEvents (resetPulse d ++ framesEvents (seq.map .command))
      { (if seq = [] then s else idleTransport s) with
        status := { s.status with curValid := false, initDone := true } } := by
  cases seq <;>
    simp [initialise, sendCommands_eq, emit_eq, hold_eq, resetPulse, invalidateCursor,
      afterEvents, idleTransport]

theorem exec_init (s : State) : exec .init s = .next (initialise Config.initSeq rstHold (afterInitCheck s)) := by
  show Host.Outcome.next (initialise Config.initSeq rstHold (accept 0x01 s)) = _
  rw [accept_init]

theorem exec_cursor (row x : Byte) (s : State) (hr : row.toNat < rows) (hx : x.toNat < width) :
    exec (.cursor row x) s = .next (afterEvents (framesEvents (cursorFrames row x))
      (placeCursor row x (afterProtocolCheck 0x04 s))) := by
  show execCursor row x s = _
  simp only [execCursor, Instr.opcode, accept_protocol (by decide : 2 ≤ (0x04 : Byte).toNat ∧ (0x04 : Byte).toNat ≤ 7)]
  rw [if_pos ⟨hr, hx⟩, setCursor_eq]

theorem exec_cursor_outside (row x : Byte) (s : State) (h : rows ≤ row.toNat ∨ width ≤ x.toNat) :
    exec (.cursor row x) s = .next (afterProtocolCheck 0x04 s) := by
  show execCursor row x s = _
  simp only [execCursor, Instr.opcode, accept_protocol (by decide : 2 ≤ (0x04 : Byte).toNat ∧ (0x04 : Byte).toNat ≤ 7)]
  rw [if_neg (by omega)]

/-- The framed bytes of CLEAR (R110). -/
def clearFrames : List Framed := cursorFrames 0 0 ++ (List.replicate surfaceBytes clearByte).map .data

theorem exec_clear (s : State) : exec .clear s =
    .next (afterEvents (framesEvents clearFrames) (placeCursor 0 0 (afterProtocolCheck 0x05 s))) := by
  show Host.Outcome.next (sendDataTimes surfaceBytes clearByte (setCursor 0 0 (accept 0x05 s))) = _
  rw [accept_protocol (by decide), setCursor_eq, sendDataTimes_eq, sendDatas_eq]
  have hn : List.replicate surfaceBytes clearByte ≠ [] := by
    rw [surfaceBytes, width, rows]; exact List.cons_ne_nil _ _
  have ha := advance_placed 0 0 surfaceBytes (afterProtocolCheck 0x05 s) (by decide) (by decide)
  rw [if_neg hn, List.length_replicate, idleTransport_afterEvents, advanceTimes_afterEvents,
    advanceTimes_idleTransport, afterEvents_append]
  erw [ha]
  rw [clearFrames, framesEvents_append]
  congr 2

/-! CHAR. -/

/-- The state after CHAR at a pixel column (R118, R123). -/
theorem exec_char (row col ch : Byte) (s : State) (hr : row.toNat < rows) (hx : pixelColumn s.cidx col < width) :
    exec (.char row col ch) s = .next (endRaster (afterGlyph row (pixelColumn s.cidx col) ch
      (afterProtocolCheck 0x06 s))) := by
  show execChar row col ch s = _
  simp only [execChar, Instr.opcode, accept_protocol (by decide : 2 ≤ (0x06 : Byte).toNat ∧ (0x06 : Byte).toNat ≤ 7)]
  rw [drawGlyph_eq row ch _ ⟨pixelColumn s.cidx col, 0, 0⟩ rfl hr hx]
  rfl

theorem exec_char_clipped (row col ch : Byte) (s : State)
    (h : rows ≤ row.toNat ∨ width ≤ pixelColumn s.cidx col) :
    exec (.char row col ch) s = .next (endRaster (afterProtocolCheck 0x06 s)) := by
  show execChar row col ch s = _
  simp only [execChar, Instr.opcode, accept_protocol (by decide : 2 ≤ (0x06 : Byte).toNat ∧ (0x06 : Byte).toNat ≤ 7)]
  rw [drawGlyph_clipped row ch _ ⟨pixelColumn s.cidx col, 0, 0⟩ rfl h]
  rfl

/-! LINE. -/

/-- The cells LINE goes through from pixel column `px`: pixel column and character (R124). -/
def lineCells : Nat → List Byte → List (Nat × Byte)
  | _, [] => []
  | px, ch :: rest => if ch ≠ 0x00 ∧ px < width then (px, ch) :: lineCells (px + charPitch) rest else []

/-- The state after the glyphs of cells, in order. -/
def afterCells (row : Byte) : List (Nat × Byte) → State → State
  | [], s => s
  | (px, ch) :: cells, s => afterCells row cells (afterGlyph row px ch s)

/-- The state after the glyphs of cells in a row that may be off the surface (R127). -/
def afterLine (row : Byte) (cells : List (Nat × Byte)) (s : State) : State :=
  if row.toNat < rows then afterCells row cells s else s

/-- The state with another working state. -/
def setRaster (r : Option Raster) (s : State) : State := { s with raster := r }

@[simp] theorem setRaster_raster (r : Option Raster) (s : State) : (setRaster r s).raster = r := rfl

@[simp] theorem setRaster_setRaster (r q : Option Raster) (s : State) :
    setRaster r (setRaster q s) = setRaster r s := rfl

theorem setRaster_self (s : State) : setRaster s.raster s = s := rfl

theorem afterGlyph_raster (row : Byte) (px : Nat) (ch : Byte) (s : State) (r : Option Raster) :
    setRaster r (afterGlyph row px ch s) = afterGlyph row px ch (setRaster r s) := by
  simp [setRaster, afterGlyph, afterEvents, placeCursor, idleTransport]

theorem afterCells_raster (row : Byte) (cells : List (Nat × Byte)) (s : State) (r : Option Raster) :
    setRaster r (afterCells row cells s) = afterCells row cells (setRaster r s) := by
  induction cells generalizing s with
  | nil => rfl
  | cons c cells ih => rw [afterCells, ih, afterGlyph_raster, afterCells]

theorem afterLine_raster (row : Byte) (cells : List (Nat × Byte)) (s : State) (r : Option Raster) :
    setRaster r (afterLine row cells s) = afterLine row cells (setRaster r s) := by
  unfold afterLine
  split
  · exact afterCells_raster row cells s r
  · rfl

/-- Drawing leaves the working state to the loop. -/
theorem afterLine_keeps_raster (row : Byte) (cells : List (Nat × Byte)) (s : State) :
    (afterLine row cells s).raster = s.raster := by
  have h := afterLine_raster row cells s s.raster
  rw [setRaster_self] at h
  rw [← h, setRaster_raster]

theorem afterLine_cons (row : Byte) (px : Nat) (ch : Byte) (cells : List (Nat × Byte)) (s : State) :
    afterLine row ((px, ch) :: cells) s = afterLine row cells (afterLine row [(px, ch)] s) := by
  unfold afterLine
  split <;> rfl

/-- `draw_glyph` at a pixel column of the surface, whatever the row (R118, R127). -/
theorem drawGlyph_cell (row ch : Byte) (s : State) (r : Raster) (hs : s.raster = some r) (hx : r.px < width) :
    ∃ i, drawGlyph row ch s = .next (afterLine row [(r.px, ch)] (setRaster (some { r with colIdx := i }) s)) := by
  by_cases hr : row.toNat < rows
  · exact ⟨3, by rw [drawGlyph_eq row ch s r hs hr hx, afterLine, if_pos hr]; rfl⟩
  · refine ⟨r.colIdx, ?_⟩
    rw [drawGlyph_clipped row ch s r hs (by omega), afterLine, if_neg hr, ← hs, setRaster_self]

/-- The loop of LINE has ended (R126). -/
theorem afterLine_nil (row : Byte) (s : State) : afterLine row [] s = s := by
  unfold afterLine
  split <;> rfl

/-- The loop of LINE from text index `k` and pixel column `px` on (R124, R126). -/
theorem lineLoop_eq (row len : Byte) (text : List Byte) (fuel : Nat) (s : State) (px k i : Nat)
    (hs : s.raster = some ⟨px, k, i⟩) (hf : len.toNat ≤ fuel + k) :
    ∃ r, lineLoop row len text fuel s =
      .next (afterLine row (lineCells px ((text.take len.toNat).drop k)) (setRaster r s)) := by
  have stop : ∀ (s : State) cells, cells = [] → ∃ r, Host.Outcome.next (φ := Fault) (ρ := Refusal) s =
      .next (afterLine row cells (setRaster r s)) := by
    rintro s _ rfl
    exact ⟨s.raster, by rw [afterLine_nil, setRaster_self]⟩
  have short : ∀ px n, (text.take len.toNat).length ≤ n → lineCells px ((text.take len.toNat).drop n) = [] := by
    intro px n hn
    rw [List.drop_eq_nil_of_le hn, lineCells]
  induction fuel generalizing s px k i with
  | zero => exact stop _ _ (short px k (by simp; omega))
  | succ fuel ih =>
    have hk : s.textIdx = k := by simp [State.textIdx, hs]
    have hp : s.px = px := by simp [State.px, hs]
    rw [lineLoop, hk, hp]
    cases hc : text[k]? with
    | none => exact stop _ _ (short px k (by have := List.getElem?_eq_none_iff.mp hc; simp; omega))
    | some ch =>
      by_cases hl : k < len.toNat
      · have hd : (text.take len.toNat).drop k = ch :: (text.take len.toNat).drop (k + 1) := by
          have hlt : k < (text.take len.toNat).length := by
            have := (List.getElem?_eq_some_iff.mp hc).1
            simp; omega
          rw [List.drop_eq_getElem_cons hlt]
          congr 1
          rw [List.getElem_take]
          exact (List.getElem?_eq_some_iff.mp hc).2
        by_cases hg : ch ≠ 0x00 ∧ px < width
        · obtain ⟨j, hj⟩ := drawGlyph_cell row ch s ⟨px, k, i⟩ hs hg.2
          have hn : nextChar (afterLine row [(px, ch)] (setRaster (some ⟨px, k, j⟩) s)) =
              afterLine row [(px, ch)] (setRaster (some ⟨px + charPitch, k + 1, j⟩) s) := by
            change setRaster _ _ = _
            rw [afterLine_keeps_raster, afterLine_raster]
            rfl
          obtain ⟨r, hr⟩ := ih (afterLine row [(px, ch)] (setRaster (some ⟨px + charPitch, k + 1, j⟩) s))
            (px + charPitch) (k + 1) j (by rw [afterLine_keeps_raster]; rfl) (by omega)
          refine ⟨r, ?_⟩
          change (if k < len.toNat ∧ ch ≠ 0x00 ∧ px < width then _ else _) = _
          rw [if_pos ⟨hl, hg⟩, hj, andThen_next, hn, hr, hd, lineCells, if_pos hg, afterLine_raster,
            setRaster_setRaster]
          exact congrArg _ (afterLine_cons row px ch _ _).symm
        · change ∃ r, (if k < len.toNat ∧ ch ≠ 0x00 ∧ px < width then _ else _) = _
          rw [if_neg (fun h => hg h.2)]
          exact stop _ _ (by rw [hd, lineCells, if_neg hg])
      · change ∃ r, (if k < len.toNat ∧ ch ≠ 0x00 ∧ px < width then _ else _) = _
        rw [if_neg (fun h => hl h.1)]
        exact stop _ _ (short px k (by simp; omega))

/-- LINE (R124): the glyphs of its cells, in order. -/
theorem exec_line (row col len : Byte) (text : List Byte) (s : State) :
    exec (.line row col len text) s =
      .next (endRaster (afterLine row (lineCells (pixelColumn s.cidx col) (text.take len.toNat))
        (afterProtocolCheck 0x07 s))) := by
  show execLine row col len text s = _
  simp only [execLine, Instr.opcode,
    accept_protocol (by decide : 2 ≤ (0x07 : Byte).toNat ∧ (0x07 : Byte).toNat ≤ 7)]
  obtain ⟨r, hr⟩ := lineLoop_eq row len text len.toNat
    (startRaster (pixelColumn s.cidx col) (afterProtocolCheck 0x07 s)) (pixelColumn s.cidx col) 0 0 rfl (by omega)
  rw [List.drop_zero] at hr
  rw [afterProtocolCheck_cidx, hr, andThen_next]
  change Host.Outcome.next (setRaster none _) = .next (setRaster none _)
  rw [afterLine_raster, afterLine_raster]
  rfl

/-- The state with the shadow cursor where a glyph at (row, px) leaves it, the transport idle (R120). -/
def endAt (row : Byte) (px : Nat) (s : State) : State :=
  { placeCursor row (BitVec.ofNat 8 px) s with curRow := glyphEndRow row px, curCol := glyphEndCol row px }

theorem afterGlyph_eq (row : Byte) (px : Nat) (ch : Byte) (s : State) :
    afterGlyph row px ch s = afterEvents (framesEvents (glyphFrames row px ch)) (endAt row px s) := rfl

theorem endAt_afterEvents (row : Byte) (px : Nat) (es : List Event) (s : State) :
    endAt row px (afterEvents es s) = afterEvents es (endAt row px s) := by
  simp [endAt, placeCursor, idleTransport, afterEvents]

theorem endAt_endAt (row : Byte) (px qx : Nat) (s : State) : endAt row px (endAt row qx s) = endAt row px s := by
  simp [endAt, placeCursor, idleTransport]

/-- The framed bytes of a line's cells (R128). -/
def cellsFrames (row : Byte) (cells : List (Nat × Byte)) : List Framed :=
  cells.flatMap fun p => glyphFrames row p.1 p.2

/-- The cells of a line on the surface: their framed bytes, and the shadow where the last one leaves it (R128). -/
theorem afterCells_eq (row : Byte) (cells : List (Nat × Byte)) (s : State) :
    afterCells row cells s = afterEvents (framesEvents (cellsFrames row cells))
      (match cells.getLast? with
        | none => s
        | some p => endAt row p.1 s) := by
  induction cells generalizing s with
  | nil => exact (afterEvents_nil s).symm
  | cons c cells ih =>
    rw [afterCells, ih, afterGlyph_eq]
    have hf : cellsFrames row (c :: cells) = glyphFrames row c.1 c.2 ++ cellsFrames row cells := rfl
    rw [hf, framesEvents_append]
    cases h : cells.getLast? with
    | none =>
      have : cells = [] := List.getLast?_eq_none_iff.mp h
      subst this
      exact afterEvents_append _ _ _
    | some p =>
      have : (c :: cells).getLast? = some p := by
        rw [List.getLast?_cons, h]
        rfl
      rw [this]
      simp only [endAt_afterEvents, endAt_endAt, afterEvents_append]

/-- The cells of a line, without recursion: the text up to its first 0x00, as many characters as start on the surface,
four columns apart (R124, R126). -/
theorem lineCells_eq (px : Nat) (text : List Byte) : lineCells px text =
    (((text.takeWhile (· ≠ 0x00)).take ((width - px + 3) / charPitch)).zipIdx).map
      fun p => (px + charPitch * p.2, p.1) := by
  induction text generalizing px with
  | nil => simp [lineCells]
  | cons ch rest ih =>
    rw [lineCells]
    by_cases hc : ch = 0x00
    · simp [hc]
    · by_cases hp : px < width
      · have hn : (width - px + 3) / charPitch = (width - (px + charPitch) + 3) / charPitch + 1 := by
          simp only [width, charPitch] at *; omega
        rw [if_pos ⟨hc, hp⟩, ih, hn]
        simp only [hc, ne_eq, not_false_eq_true, decide_true, List.takeWhile_cons_of_pos, List.take_succ_cons,
          List.zipIdx_cons, List.map_cons, Nat.mul_zero, Nat.add_zero, List.cons.injEq, true_and, Nat.zero_add]
        rw [List.zipIdx_succ, List.map_map]
        congr 1
        funext p
        simp only [Function.comp, Prod.mk.injEq, and_true, charPitch]
        omega
      · have hn : (width - px + 3) / charPitch = 0 := by simp only [width, charPitch] at *; omega
        rw [if_neg (by tauto), hn]
        simp

end Sys2Proof.Laws
end

