-- ==== Sys2Proof/Laws/Memory.lean ====
section
/-! SUPPORT. The display memory of the reference receiver: read after write, everything else unchanged, the canonical form
kept. -/

namespace Sys2Proof.Laws

open Sys2Proof.Machine

@[simp] theorem readCell_nil (a : Nat) : readCell [] a = none := rfl

@[simp] theorem readCell_writeCell_same (m : DisplayMemory) (a : Nat) (b : Byte) :
    readCell (writeCell m a b) a = some b := by
  induction m with
  | nil => simp [writeCell, readCell]
  | cons c m ih =>
    obtain ⟨k, v⟩ := c
    by_cases h : a < k
    · simp [writeCell, readCell, h]
    · by_cases e : a = k
      · simp [writeCell, readCell, e]
      · simp [writeCell, readCell, h, e, ih]

theorem readCell_writeCell_other (m : DisplayMemory) {a a' : Nat} (b : Byte) (h : a' ≠ a) :
    readCell (writeCell m a b) a' = readCell m a' := by
  induction m with
  | nil => simp [writeCell, readCell, h]
  | cons c m ih =>
    obtain ⟨k, v⟩ := c
    by_cases hl : a < k
    · simp [writeCell, readCell, hl, h]
    · by_cases e : a = k
      · have : a' ≠ k := e ▸ h
        simp [writeCell, readCell, e, this]
      · simp [writeCell, readCell, hl, e, ih]

theorem cellsAbove_writeCell (m : DisplayMemory) (bound a : Nat) (b : Byte) (hm : cellsAbove bound m = true)
    (ha : bound < a) : cellsAbove bound (writeCell m a b) = true := by
  induction m generalizing bound with
  | nil => simp [writeCell, cellsAbove, ha]
  | cons c m ih =>
    obtain ⟨k, v⟩ := c
    simp only [cellsAbove, Bool.and_eq_true, decide_eq_true_eq] at hm
    by_cases hl : a < k
    · simp [writeCell, cellsAbove, hl, ha, hm.2]
    · by_cases e : a = k
      · simpa [writeCell, cellsAbove, e] using hm
      · simp [writeCell, cellsAbove, hl, e, hm.1, ih k hm.2 (by omega)]

/-- A write keeps the canonical form. -/
theorem writeCell_wf (m : DisplayMemory) (a : Nat) (b : Byte) (hm : Memory.wf m = true) :
    Memory.wf (writeCell m a b) = true := by
  cases m with
  | nil => rfl
  | cons c m =>
    obtain ⟨k, v⟩ := c
    have hm' : cellsAbove k m = true := hm
    by_cases hl : a < k
    · simp [writeCell, hl, Memory.wf, cellsAbove, hm']
    · by_cases e : a = k
      · simpa [writeCell, e, Memory.wf] using hm'
      · simpa [writeCell, hl, e, Memory.wf] using cellsAbove_writeCell m k a b hm' (by omega)

theorem memory_nil_wf : Memory.wf [] = true := rfl

end Sys2Proof.Laws
end

