-- ==== Sys2Proof/Laws/PerInstr.lean ====
section
/-! SUPPORT. Statements made per instruction. Family `RequestLength`: the bytes of a request begin with its opcode and
are as many as R71 says. -/

namespace Sys2Proof.Laws.RequestLength

/-- The encoded request begins with its opcode and has the length that its own bytes give (R69, R70, R71). -/
def Statement (i : Instr) : Prop :=
  i.wf = true → (encode i).head? = some i.opcode ∧ requestLength (encode i) = some (encode i).length

theorem nop : Statement .nop := fun _ => ⟨rfl, rfl⟩

theorem init : Statement .init := fun _ => ⟨rfl, rfl⟩

theorem cmd (imm8 : Byte) : Statement (.cmd imm8) := fun _ => ⟨rfl, rfl⟩

theorem data (imm8 : Byte) : Statement (.data imm8) := fun _ => ⟨rfl, rfl⟩

theorem cursor (row x : Byte) : Statement (.cursor row x) := fun _ => ⟨rfl, rfl⟩

theorem clear : Statement .clear := fun _ => ⟨rfl, rfl⟩

theorem char (row col ch : Byte) : Statement (.char row col ch) := fun _ => ⟨rfl, rfl⟩

theorem line (row col len : Byte) (text : List Byte) : Statement (.line row col len text) := by
  intro h
  have ht : text.length = len.toNat := (lineTextFits_iff len text).mp h
  refine ⟨rfl, ?_⟩
  show some (4 + len.toNat) = some (text.length + 1 + 1 + 1 + 1)
  rw [ht]
  congr 1
  omega

theorem wrctrl (imm8 : Byte) : Statement (.wrctrl imm8) := fun _ => ⟨rfl, rfl⟩

theorem reserved (op : Byte) : Statement (.reserved op) := fun h =>
  ⟨rfl, requestLength_reserved ((isReservedOpcode_iff op).mp h) []⟩

end Sys2Proof.Laws.RequestLength
end

