-- ==== Sys2Proof/Laws/Receiver.lean ====
section
/-! SUPPORT. The reference receiver over framed bytes: one lemma per framed byte, so that no proof goes through single
events. -/

namespace Sys2Proof.Laws

open Sys2Proof.Machine

theorem run_append (r : Receiver) (es fs : List Event) : r.run (es ++ fs) = (r.run es).run fs := by
  simp [Receiver.run, List.foldl_append]

@[simp] theorem run_nil (r : Receiver) : r.run [] = r := rfl

theorem run_cons (r : Receiver) (e : Event) (es : List Event) : r.run (e :: es) = (r.event e).run es := rfl

/-- Eight bits, most significant first, give the byte back (R84). -/
theorem byteOfBits_byte (b : Byte) :
    byteOfBits [b.getLsbD 7, b.getLsbD 6, b.getLsbD 5, b.getLsbD 4, b.getLsbD 3, b.getLsbD 2, b.getLsbD 1,
      b.getLsbD 0] = b := by
  revert b
  decide

/-- The receiver with the pins as the byte leaves them. -/
def seenByte (b : Byte) (r : Receiver) : Receiver :=
  { r with pins := { r.pins with sdin := b.getLsbD 0, sclk := false }, bits := [] }

/-- The events of one byte reach the receiver as that byte (R66, R84). -/
theorem run_byteEvents (r : Receiver) (b : Byte) (hc : r.pins.rst = true) (hb : r.bits = []) :
    r.run (byteEvents b) = (seenByte b r).byte b := by
  have h := byteOfBits_byte b
  simp only [Nat.reduceLT, BitVec.getLsbD_eq_getElem] at h
  simp [byteEvents_eq, bitEvents, Receiver.run, Receiver.event, Receiver.sample, hc, hb, seenByte, h]

theorem run_dc (r : Receiver) (v : Bool) (es : List Event) (hc : r.pins.rst = true) :
    r.run (.set .dc v :: es) = ({ r with pins := { r.pins with dc := v } } : Receiver).run es := by
  simp [run_cons, Receiver.event, hc]

/-- The receiver's pins after a framed byte. -/
def framedPins (dc : Bool) (b : Byte) (r : Receiver) : Receiver :=
  { r with pins := { r.pins with sdin := b.getLsbD 0, sclk := false, dc := dc }, bits := [] }

/-- A framed command byte (R65, R66). -/
theorem run_command (r : Receiver) (b : Byte) (hc : r.pins.rst = true) (hb : r.bits = []) :
    r.run (framedEvents (.command b)) = (framedPins dcCmdLevel b r).command b := by
  rw [framedEvents, run_dc r _ _ hc, run_byteEvents]
  · simp [Receiver.byte, seenByte, framedPins]
  · exact hc
  · exact hb

/-- A framed data byte (R64, R66). -/
theorem run_data (r : Receiver) (b : Byte) (hc : r.pins.rst = true) (hb : r.bits = []) :
    r.run (framedEvents (.data b)) = (framedPins (!dcCmdLevel) b r).data b := by
  rw [framedEvents, run_dc r _ _ hc, run_byteEvents]
  · simp [Receiver.byte, seenByte, framedPins, dcCmdLevel]
  · exact hc
  · exact hb

/-! What a byte does to the receiver. -/

@[simp] theorem command_pins (r : Receiver) (b : Byte) : (r.command b).pins = r.pins := by
  unfold Receiver.command
  split
  · rfl
  · split
    · rfl
    · split <;> rfl

@[simp] theorem command_bits (r : Receiver) (b : Byte) : (r.command b).bits = r.bits := by
  unfold Receiver.command
  split
  · rfl
  · split
    · rfl
    · split <;> rfl

@[simp] theorem command_mem (r : Receiver) (b : Byte) : (r.command b).mem = r.mem := by
  unfold Receiver.command
  split
  · rfl
  · split
    · rfl
    · split <;> rfl

@[simp] theorem command_raw (r : Receiver) (b : Byte) : (r.command b).raw = r.raw := by
  unfold Receiver.command
  split
  · rfl
  · split
    · rfl
    · split <;> rfl

/-- A raw command byte, whatever its value (R65). -/
theorem command_of_raw (r : Receiver) (b : Byte) (h : r.raw = true) :
    r.command b = { r with y := none, x := none } := if_pos h

@[simp] theorem data_raw (r : Receiver) (b : Byte) : (r.data b).raw = r.raw := by
  obtain ⟨p, bits, y, x, m, w⟩ := r
  cases y <;> cases x <;> simp [Receiver.data]
  split <;> rfl

/-- A data byte with the cursor unknown (R164, log 20). -/
theorem data_unknown (r : Receiver) (b : Byte) (h : r.y = none ∨ r.x = none) :
    r.data b = { r with y := none, x := none, mem := [] } := by
  obtain ⟨p, bits, y, x, m, w⟩ := r
  rcases h with rfl | rfl
  · rfl
  · cases y <;> rfl

@[simp] theorem data_pins (r : Receiver) (b : Byte) : (r.data b).pins = r.pins := by
  obtain ⟨p, bits, y, x, m, w⟩ := r
  cases y <;> cases x <;> simp [Receiver.data]
  split <;> rfl

@[simp] theorem data_bits (r : Receiver) (b : Byte) : (r.data b).bits = r.bits := by
  obtain ⟨p, bits, y, x, m, w⟩ := r
  cases y <;> cases x <;> simp [Receiver.data]
  split <;> rfl

/-- A data byte at a known position (R64). -/
theorem data_known (r : Receiver) (b : Byte) {y x : Nat} (hy : r.y = some y) (hx : r.x = some x) :
    r.data b =
      { r with
        mem := writeCell r.mem (y * width + x) b
        x := some (if x + 1 = width then 0 else x + 1)
        y := some (if x + 1 = width then (if y + 1 = rows then 0 else y + 1) else y) } := by
  obtain ⟨p, bits, y', x', m, w⟩ := r
  simp only at hy hx
  subst hy hx
  by_cases h : x + 1 = width <;> simp [Receiver.data, h]

/-- A data byte at a known position of the surface: written there, and the cursor one position further in row-major order,
from the last position to the first (R64). -/
theorem data_position (r : Receiver) (b : Byte) {y x : Nat} (hy : r.y = some y) (hx : r.x = some x)
    (h1 : y < 6) (h2 : x < 84) :
    ∃ y' x', y' < 6 ∧ x' < 84 ∧ y' * 84 + x' = (y * 84 + x + 1) % 504 ∧
      r.data b = { r with mem := writeCell r.mem (y * 84 + x) b, x := some x', y := some y' } := by
  rw [data_known r b hy hx]
  by_cases e1 : x + 1 = 84
  · by_cases e2 : y + 1 = 6
    · exact ⟨0, 0, by omega, by omega, by omega, by simp [width, rows, e1, e2]⟩
    · exact ⟨y + 1, 0, by omega, by omega, by omega, by simp [width, rows, e1, e2]⟩
  · exact ⟨y, x + 1, by omega, by omega, by omega, by simp [width, e1]⟩

theorem cmdSetY_toNat {r : Byte} (h : r.toNat < rows) : (cmdSetY r).toNat = 0x40 + r.toNat := by
  revert r
  decide

theorem cmdSetX_toNat {x : Byte} (h : x.toNat < width) : (cmdSetX x).toNat = 0x80 + x.toNat := by
  revert x
  decide

theorem command_setY (r : Receiver) {b : Byte} (hw : r.raw = false) (h : b.toNat < rows) :
    r.command (cmdSetY b) = { r with y := some b.toNat } := by
  have e := cmdSetY_toNat h
  have h1 : 0x40 ≤ (cmdSetY b).toNat ∧ (cmdSetY b).toNat < 0x40 + rows := by omega
  rw [Receiver.command, hw, if_neg (by decide), if_pos h1, e, Nat.add_sub_cancel_left]

theorem command_setX (r : Receiver) {b : Byte} (hw : r.raw = false) (h : b.toNat < width) :
    r.command (cmdSetX b) = { r with x := some b.toNat } := by
  have e := cmdSetX_toNat h
  have h1 : ¬ (0x40 ≤ (cmdSetX b).toNat ∧ (cmdSetX b).toNat < 0x40 + rows) := by
    simp only [rows]; omega
  have h2 : 0x80 ≤ (cmdSetX b).toNat ∧ (cmdSetX b).toNat < 0x80 + width := by omega
  rw [Receiver.command, hw, if_neg (by decide), if_neg h1, if_pos h2, e, Nat.add_sub_cancel_left]

/-- The cursor pair sets the device cursor (R65, R106). -/
theorem run_cursorFrames (r : Receiver) {row x : Byte} (hr : row.toNat < rows) (hx : x.toNat < width)
    (hc : r.pins.rst = true) (hb : r.bits = []) (hw : r.raw = false) :
    r.run (framesEvents (cursorFrames row x)) =
      { framedPins dcCmdLevel (cmdSetX x) r with y := some row.toNat, x := some x.toNat } := by
  simp only [cursorFrames, framesEvents_cons, framesEvents_nil, List.append_nil, run_append]
  rw [run_command r _ hc hb, command_setY _ (by exact hw) hr,
    run_command _ _ (by simpa [framedPins] using hc) rfl, command_setX _ (by exact hw) hx]
  rfl

/-- Data bytes in order. -/
def receiveDatas : List Byte → Receiver → Receiver
  | [], r => r
  | b :: bs, r => receiveDatas bs ((framedPins (!dcCmdLevel) b r).data b)

theorem run_datas (bs : List Byte) (r : Receiver) (hc : r.pins.rst = true) (hb : r.bits = []) :
    r.run (framesEvents (bs.map .data)) = receiveDatas bs r := by
  induction bs generalizing r with
  | nil => rfl
  | cons b bs ih =>
    rw [List.map_cons, framesEvents_cons, run_append, run_data r b hc hb, receiveDatas]
    exact ih _ (by simpa [framedPins] using hc) (by simp [framedPins])

/-- The receiver sees the pin levels of the events (R13, R64). -/
theorem run_pins (r : Receiver) (es : List Event) : (r.run es).pins = pinsAfter r.pins es := by
  induction es generalizing r with
  | nil => rfl
  | cons e es ih =>
    rw [run_cons, ih]
    change _ = pinsAfter (pinsAfterEvent r.pins e) es
    congr 1
    cases e with
    | hold d => rfl
    | set pin v =>
        simp only [Receiver.event]
        split
        · rfl
        · split
          · simp only [Receiver.sample]
            split
            · simp [Receiver.byte]
              split <;> simp [pinsAfterEvent]
            · rfl
          · rfl

/-- Events do not change whose bytes come. -/
@[simp] theorem event_raw (r : Receiver) (e : Event) : (r.event e).raw = r.raw := by
  cases e with
  | hold d => rfl
  | set pin v =>
    simp only [Receiver.event]
    split
    · rfl
    · split
      · simp only [Receiver.sample]
        split
        · simp only [Receiver.byte]
          split <;> simp
        · rfl
      · rfl

@[simp] theorem run_raw (r : Receiver) (es : List Event) : (r.run es).raw = r.raw := by
  induction es generalizing r with
  | nil => rfl
  | cons e es ih => rw [run_cons, ih, event_raw]

end Sys2Proof.Laws
end

