-- ==== Sys2Proof/Laws/Step.lean ====
section
/-! SUPPORT. One lemma per case of a step, cited instead of unfolding `step`. -/

namespace Sys2Proof.Laws

open Sys2Proof.Machine

theorem step_of_high {s : State} (h : s.resetN = true) : step s = stepRunning s := if_pos h

theorem step_of_low {s : State} (h : s.resetN = false) : step s = stepHeld s := if_neg (by simp [h])

/-- A register read acts at any time (R23, R166). -/
theorem step_read {s : State} {a : RegAddr} {rest : List HostAction} (hr : s.resetN = true)
    (hh : s.host = .read a :: rest) : step s = .next (hostRead a { s with host := rest }) := by
  rw [step_of_high hr, stepRunning, hh]

/-- The reset input acts at any time (R24). -/
theorem step_drive {s : State} {level : Bool} {rest : List HostAction} (hr : s.resetN = true)
    (hh : s.host = .driveResetN level :: rest) : step s = .next (driveResetFromHigh level { s with host := rest }) := by
  rw [step_of_high hr, stepRunning, hh]

/-- A handshake (R22). -/
theorem step_send {s : State} {b : Byte} {rest : List HostAction} (hr : s.resetN = true) (hb : s.status.busy = false)
    (hh : s.host = .send b :: rest) : step s = acceptByte b { s with host := rest } := by
  rw [step_of_high hr, stepRunning, hh]
  exact if_neg (by simp [hb])

/-- A wait ends when `REQ_READY = 1` (R160). -/
theorem step_await {s : State} {rest : List HostAction} (hr : s.resetN = true) (hb : s.status.busy = false)
    (hh : s.host = .awaitReady :: rest) : step s = .next { s with host := rest } := by
  rw [step_of_high hr, stepRunning, hh]
  exact if_neg (by simp [hb])

/-- Nothing to do: the block waits (R168). -/
theorem step_wait {s : State} (hr : s.resetN = true) (hb : s.status.busy = false) (hh : s.host = []) :
    step s = .next s := by
  rw [step_of_high hr, stepRunning, hh]
  exact if_neg (by simp [hb])

/-- The block step (R22). -/
theorem step_pending {s : State} (h : s.aboutToRun = true) : step s = runPending s := by
  simp only [State.aboutToRun, Bool.and_eq_true] at h
  obtain ⟨⟨hr, hb⟩, hh⟩ := h
  rw [step_of_high hr, stepRunning]
  split <;> rename_i e <;> rw [e] at hh
  · cases hh
  · cases hh
  · exact if_pos hb
  · exact if_pos hb
  · exact if_pos hb

/-- Every case of a step from a state with `RESET_N` high. -/
theorem step_cases {s : State} (hr : s.resetN = true) :
    (∃ a rest, s.host = .read a :: rest ∧ step s = .next (hostRead a { s with host := rest })) ∨
    (∃ level rest, s.host = .driveResetN level :: rest ∧
      step s = .next (driveResetFromHigh level { s with host := rest })) ∨
    (s.status.busy = false ∧ ∃ b rest, s.host = .send b :: rest ∧ step s = acceptByte b { s with host := rest }) ∨
    (s.status.busy = false ∧ ∃ rest, s.host = .awaitReady :: rest ∧ step s = .next { s with host := rest }) ∨
    (s.status.busy = false ∧ s.host = [] ∧ step s = .next s) ∨
    (s.status.busy = true ∧ step s = runPending s) := by
  cases hb : s.status.busy
  · rcases hh : s.host with _ | ⟨a, rest⟩
    · exact .inr (.inr (.inr (.inr (.inl ⟨rfl, rfl, step_wait hr hb hh⟩))))
    · cases a with
      | send b => exact .inr (.inr (.inl ⟨rfl, b, rest, rfl, step_send hr hb hh⟩))
      | read a => exact .inl ⟨a, rest, rfl, step_read hr hh⟩
      | awaitReady => exact .inr (.inr (.inr (.inl ⟨rfl, rest, rfl, step_await hr hb hh⟩)))
      | driveResetN level => exact .inr (.inl ⟨level, rest, rfl, step_drive hr hh⟩)
  · rcases hh : s.host with _ | ⟨a, rest⟩
    · exact .inr (.inr (.inr (.inr (.inr ⟨rfl, step_pending (by simp [State.aboutToRun, hr, hb, hh])⟩))))
    · cases a with
      | read a => exact .inl ⟨a, rest, rfl, step_read hr hh⟩
      | driveResetN level => exact .inr (.inl ⟨level, rest, rfl, step_drive hr hh⟩)
      | send b => exact .inr (.inr (.inr (.inr (.inr ⟨rfl, step_pending (by simp [State.aboutToRun, hr, hb, hh])⟩))))
      | awaitReady =>
        exact .inr (.inr (.inr (.inr (.inr ⟨rfl, step_pending (by simp [State.aboutToRun, hr, hb, hh])⟩))))

/-- The block step of a decoded request. -/
theorem runPending_eq {s : State} {i : Instr} (h : decode s.rqbuf = .ok (i, [])) :
    runPending s = andThen (exec i s) fun t => .next (complete t) := by
  rw [runPending, h]

/-- A block step that answers a next state has run a request. -/
theorem runPending_cases {s t : State} (h : runPending s = .next t) :
    ∃ i u, decode s.rqbuf = .ok (i, []) ∧ exec i s = .next u ∧ t = complete u := by
  rw [runPending] at h
  split at h
  · rename_i i hd
    obtain ⟨u, hu, hc⟩ := andThen_eq_next h
    cases hc
    exact ⟨i, u, hd, hu, rfl⟩
  · cases h

/-- No meaning stops: every request answers a next state on every state and operand. -/
theorem exec_next (i : Instr) (s : State) : ∃ t, exec i s = .next t := by
  cases i with
  | char row col ch =>
    by_cases h : row.toNat < rows ∧ pixelColumn s.cidx col < width
    · exact ⟨_, exec_char _ _ _ _ h.1 h.2⟩
    · exact ⟨_, exec_char_clipped _ _ _ _ (by omega)⟩
  | line row col len text => exact ⟨_, exec_line ..⟩
  | _ => exact ⟨_, rfl⟩

/-- A run goes on from the state its first step answers. -/
theorem core_run_next {s t : State} (k : Nat) (h : step s = .next t) :
    Host.Core.run core (k + 1) s = Host.Core.run core k t := by
  have g : ∀ (M : Host.Core) (s t : M.State), M.step s = .next t → M.run (k + 1) s = M.run k t := by
    intro M s t h
    simp [Host.Core.run, h]
  exact g core s t h

end Sys2Proof.Laws
end

