-- ==== Sys2Proof/Tests/Slice0.lean ====
section
/-! SUPPORT. Tests and witnesses. Every expected value is the spec's: the encodings of 30_encoding.md and the vectors of
95_test_vectors.md, named in each comment. The witnesses show states that meet the hypotheses of the obligations. -/

namespace Sys2Proof.Tests

open Sys2Proof.Machine

/-! ## Well-formedness: ill-formed terms are refused -/

/-- LINE with three text bytes and a length of two (R69). -/
theorem test_wf_refuses_line_length : (Instr.line 0 0 2 [0x41, 0x42, 0x43]).wf = false := by decide

/-- WRCTRL's opcode byte is not reserved (R76). -/
theorem test_wf_refuses_low_reserved : (Instr.reserved 0x08).wf = false := by decide

/-! ## Decoding: bytes written out from the encodings -/

/-- F0 opcodes 0x00, 0x01, 0x05; a byte left over stays (R69, R70). -/
theorem test_decode_f0 :
    decode [0x00, 0x09] = .ok (.nop, [0x09]) ∧ decode [0x01] = .ok (.init, []) ∧ decode [0x05] = .ok (.clear, []) := by
  decide

/-- V-P2, V-P3, V-K2: F1 (R69). -/
theorem test_decode_f1 :
    decode [0x02, 0x0C] = .ok (.cmd 0x0C, []) ∧ decode [0x03, 0xFF] = .ok (.data 0xFF, []) ∧
      decode [0x08, 0xFE] = .ok (.wrctrl 0xFE, []) := by decide

/-- V-F1: F2, row before x (R69). -/
theorem test_decode_cursor : decode [0x04, 0x05, 0x53] = .ok (.cursor 5 83, []) := by decide

/-- V-C1: F3, row, column, character (R69). -/
theorem test_decode_char : decode [0x06, 0x01, 0x13, 0x5A] = .ok (.char 1 19 0x5A, []) := by decide

/-- V-L1: F4, the text after the length (R69). -/
theorem test_decode_line :
    decode [0x07, 0x02, 0x4C, 0x03, 0x48, 0x69, 0x21, 0x05] = .ok (.line 2 76 3 [0x48, 0x69, 0x21], [0x05]) := by
  decide

/-- The bounds of the reserved opcodes (R76). -/
theorem test_decode_reserved :
    decode [0x09, 0x00] = .ok (.reserved 0x09, [0x00]) ∧ decode [0xFF] = .ok (.reserved 0xFF, []) := by decide

/-- A request that lacks bytes is rejected by name (R71). -/
theorem test_decode_missing :
    decode [] = .error .noOpcode ∧ decode [0x06, 0x00, 0x03] = .error (.missingOperands 0x06) ∧
      decode [0x07, 0x00, 0x00, 0x02, 0x41] = .error (.missingOperands 0x07) := by decide

/-- Table words: bit 0 is the least significant bit of the first byte. -/
theorem test_table_words :
    decodeTableWord 8 0x00 = some .nop ∧ decodeTableWord 16 0x2102 = some (.cmd 0x21) ∧
      decodeTableWord 24 0x280204 = some (.cursor 2 40) ∧ decodeTableWord 32 0x41030006 = some (.char 0 3 0x41) ∧
      decodeTableWord 8 0x13 = some (.reserved 0x13) := by decide

/-- A LINE whose text bytes lie above the word reads zeros there. -/
theorem test_table_word_line : decodeTableWord 32 0x02000107 = some (.line 1 0 2 [0x00, 0x00]) := by
  decide +kernel

/-! ## The machine, one request or one step -/

/-- The answer of an outcome, looked at through `f`. -/
def seen {α : Type} (o : Host.Outcome State Fault Refusal) (f : State → α) : Option α :=
  match o with
  | .next t => some (f t)
  | .fault _ => none
  | .refused _ => none

/-- After INIT: display out of reset, no shadow cursor. -/
def ready : State :=
  { State.reset with
    pins := { State.reset.pins with rst := true }
    status := { State.reset.status with initDone := true }
    trace := [.set .rst true] }

/-- After INIT, with the shadow cursor at (r, x). -/
def shadowAt (r : BitVec 3) (x : BitVec 7) : State :=
  { ready with curRow := r, curCol := x, status := { ready.status with curValid := true } }

/-- After INIT, in pixel columns. -/
def pixelMode : State := { ready with cidx := false }

/-- The shadow cursor, row and column, if valid. -/
def shadow (s : State) : Option (Nat × Nat) :=
  if s.status.curValid then some (s.curRow.toNat, s.curCol.toNat) else none

/-- V-K1: the register reads after block reset. -/
theorem test_reset_reads :
    (List.range 8).map (fun a => (readRegister (BitVec.ofNat 3 a) State.reset).toNat) = [0, 1, 0, 0, 0, 0, 0, 0] := by
  decide

/-- V-T1, 0xA5: the wire trace of the byte has 23 events; SDIN ends 1. -/
theorem test_transmit_A5 :
    (wireTrace State.reset.pins (transmit 0xA5 State.reset).trace).length = 23 ∧
      (transmit 0xA5 State.reset).pins.sdin = true := by decide

/-- V-T2: the wire trace of 0x80 begins with SDIN 1, a pulse, SDIN 0, a pulse. -/
theorem test_transmit_80 :
    (wireTrace State.reset.pins (transmit 0x80 State.reset).trace).take 6 =
      [.set .sdin true, .set .sclk true, .set .sclk false, .set .sdin false, .set .sclk true, .set .sclk false] := by
  decide

/-- V-P1: the shadow wraps from (0, 83) to (1, 0) and from (5, 83) to (0, 0). -/
theorem test_advance_wraps :
    shadow (advanceCursor (shadowAt 0 83)) = some (1, 0) ∧ shadow (advanceCursor (shadowAt 5 83)) = some (0, 0) := by
  decide

/-- V-P2: CMD leaves the shadow invalid and DC at 0; V-E1: before INIT it is flagged. -/
theorem test_cmd :
    seen (exec (.cmd 0x0C) (shadowAt 2 10)) (fun t => (shadow t, t.pins.dc, t.trace.length)) = some (none, false, 26) ∧
      seen (exec (.cmd 0x0C) State.reset) (fun t => (t.status.errPreinit, t.errcode)) = some (true, 0x02) := by
  decide

/-- V-P3: DATA 0xFF from (0, 83). -/
theorem test_data : seen (exec (.data 0xFF) (shadowAt 0 83)) (fun t => (shadow t, t.pins.dc, t.pins.sdin)) =
    some (some (1, 0), true, true) := by decide

/-- V-E1: DATA before INIT sets ERR_PREINIT, records 0x03, and is sent. -/
theorem test_data_preinit :
    seen (exec (.data 0x12) State.reset) (fun t => (t.status.errPreinit, t.errcode, t.trace.length)) =
      some (true, 0x03, 25) := by decide

/-- The reference configuration of `INIT_SEQ` (95_test_vectors.md). -/
def referenceSeq : List Byte := [0x21, 0xB1, 0x04, 0x14, 0x20, 0x0C]

/-- V-P5: INIT with the reference configuration: 153 events, STATUS reads 0x02. -/
theorem test_initialise :
    (initialise referenceSeq 20000 State.reset).trace.length = 153 ∧
      statusByte (initialise referenceSeq 20000 State.reset) = 0x02 := by decide +kernel

/-- P6: a second INIT with the reference configuration: STATUS 0x12, ERRCODE 0x01, 306 events in all. -/
theorem test_initialise_again :
    let t := initialise referenceSeq 20000 (accept 0x01 (initialise referenceSeq 20000 State.reset))
    (statusByte t, t.errcode, t.trace.length) = (0x12, 0x01, 306) := by decide +kernel

/-- V-F1: CURSOR 2,40 sends 0x42 and 0xA8. -/
theorem test_cursor : seen (exec (.cursor 2 40) ready) (fun t => (shadow t, t.trace.drop 1)) =
    some (some (2, 40), framedEvents (.command 0x42) ++ framedEvents (.command 0xA8)) := by decide

/-- V-F2: CURSOR 6,0 and CURSOR 0,84 do nothing. -/
theorem test_cursor_outside :
    exec (.cursor 6 0) (shadowAt 1 1) = .next (shadowAt 1 1) ∧
      exec (.cursor 0 84) (shadowAt 1 1) = .next (shadowAt 1 1) := ⟨rfl, rfl⟩

/-- V-F4: CLEAR adds 12650 events to the trace (by the closed form of the law `exec_clear`). -/
theorem test_clear_events : ∃ t, exec .clear ready = .next t ∧ t.trace.length = 1 + 12650 := by
  refine ⟨_, Laws.exec_clear ready, ?_⟩
  have h : (framesEvents Laws.clearFrames).length = 12650 := by
    rw [Laws.framesEvents_length, Laws.clearFrames, List.length_append, List.length_map, List.length_replicate]
    rfl
  change ([Event.set .rst true] ++ framesEvents Laws.clearFrames).length = _
  rw [List.length_append, h]
  rfl

/-- V-C1: CHAR 5,20,'A' sends six framed bytes, and the shadow wraps to (0, 0). -/
theorem test_char_last_cell :
    seen (exec (.char 5 20 0x41) ready) (fun t => (shadow t, t.trace.length)) = some (some (0, 0), 151) := by
  decide +kernel

/-- V-C2: CHAR 0,81,'B' in pixel columns sends five framed bytes; V-C1: CHAR 0,64 is clipped, no 8-bit wrap. -/
theorem test_char_clipped :
    seen (exec (.char 0 81 0x42) pixelMode) (fun t => (shadow t, t.trace.length)) = some (some (1, 0), 126) ∧
      seen (exec (.char 0 64 0x41) ready) (fun t => (shadow t, t.trace.length)) = some (none, 1) := by
  decide +kernel

/-- V-G1, V-G2: glyph addresses. -/
theorem test_glyph_addr :
    [0x20, 0x2A, 0x3F, 0x41, 0x7E, 0x40, 0x7F, 0x1F, 0x00, 0xFF].map (fun c => (glyphAddr c).toNat) =
      [0, 30, 93, 99, 282, 30, 30, 30, 30, 30] := by decide

/-- V-L1: LINE 2,76,"Hi!" in pixel columns draws two glyphs; the shadow ends at (3, 0); CIDX stays 0. -/
theorem test_line : seen (exec (.line 2 76 3 [0x48, 0x69, 0x21]) pixelMode)
    (fun t => (shadow t, t.trace.length, t.cidx)) = some (some (3, 0), 301, false) := by
  decide +kernel

/-- V-L5, P5: in character columns 41 0A 42 ends at (0, 12); 41 00 42 stops at the zero byte. -/
theorem test_line_text :
    seen (exec (.line 0 0 3 [0x41, 0x0A, 0x42]) ready) shadow = some (some (0, 12)) ∧
      seen (exec (.line 0 0 3 [0x41, 0x00, 0x42]) ready) shadow = some (some (0, 4)) := by
  decide +kernel

/-- V-K2: WRCTRL 0xFE and 0xFF. -/
theorem test_wrctrl :
    seen (exec (.wrctrl 0xFE) State.reset) ctrlByte = some 0x00 ∧
      seen (exec (.wrctrl 0xFF) pixelMode) ctrlByte = some 0x01 := by decide

/-- V-K3: NOP changes nothing. -/
theorem test_nop : exec .nop (shadowAt 2 3) = .next (shadowAt 2 3) := by rfl

/-- V-E1: 0x09 sets ERR_BADOP and records itself; a later one does not overwrite ERRCODE. -/
theorem test_reserved :
    seen (exec (.reserved 0x09) State.reset) (fun t => (statusByte t, t.errcode, t.trace)) = some (0x20, 0x09, []) ∧
      seen (exec (.reserved 0xFF) { ready with errcode := 0x06, status := { ready.status with errPreinit := true } })
        (fun t => (statusByte t, t.errcode)) = some (0x2A, 0x06) := by decide

/-- The last byte of CMD makes the request pending, and the step after it is the block step (R22). -/
theorem test_step_handshake :
    seen (step { ready with rqbuf := [0x02], host := [.send 0x0C] }) (fun t => (t.status.busy, t.rqbuf, t.host)) =
      some (true, [0x02, 0x0C], []) := by decide

theorem test_step_block : seen (step { ready with rqbuf := [0x02, 0x0C], status := { ready.status with busy := true } })
    (fun t => (t.status.busy, t.rqbuf, t.trace.length)) = some (false, [], 26) := by decide

/-- A read of STATUS before INIT (R135). -/
theorem test_step_read : seen (step { ready with host := [.read 0] }) (fun t => t.lastRead) = some (some (0, 0x02)) := by
  decide

/-- Block reset while idle (R24, R155): RST goes low, CTRL reads 0x01, REQ_READY is 0. -/
theorem test_step_reset : seen (step { pixelMode with host := [.driveResetN false] })
    (fun t => (t.pins.rst, ctrlByte t, t.reqReady)) = some (false, 0x01, false) := by decide

/-- A request of a table word is what the first step after reset runs. -/
theorem test_fetch_word :
    seen (step (State.reset.withFetchWord 16 0x0003)) (fun t => (t.errcode, t.rqbuf, t.status.busy)) =
      some (0x03, [], false) ∧
    seen (step (State.reset.withFetchWord 32 0x01010107)) (fun t => t.errcode) = some 0x07 := ⟨rfl, rfl⟩

/-! ## Witnesses: states and operands that meet the hypotheses of the obligations -/

/-- A pending CMD 0x0C, the host waiting. -/
def pendingCmd : State :=
  { ready with rqbuf := [0x02, 0x0C], status := { ready.status with busy := true }, host := [.awaitReady] }

theorem witness_BlockReset_high : ({ ready with host := [.driveResetN false] } : State).resetN = true ∧
    ({ ready with host := [.driveResetN false] } : State).host = .driveResetN false :: [] ∧
    ({ ready with host := [.driveResetN false] } : State).status.busy = false := by decide

/-- Block reset held, with the host's next action `a`. -/
def held (a : HostAction) : State := { State.reset with resetN := false, host := [a] }

theorem witness_BlockReset_held : (held (.send 0x05)).resetN = false ∧ (held (.send 0x05)).host = .send 0x05 :: [] ∧
    (held .awaitReady).resetN = false ∧ (held .awaitReady).host = .awaitReady :: [] ∧
    (held (.read 7)).resetN = false ∧ (held (.read 7)).host = .read 7 :: [] ∧
    (held (.driveResetN true)).resetN = false ∧ (held (.driveResetN true)).host = .driveResetN true :: [] := by decide

theorem witness_ResetCutsRequest : ∃ (s u : State) (i : Instr) (es : List Event) (rest : List HostAction),
    s.resetN = true ∧ s.status.busy = true ∧ decode s.rqbuf = .ok (i, []) ∧ s.host = .driveResetN false :: rest ∧
      exec i { s with host := rest } = .next u ∧ u.trace = s.trace ++ es ∧ es ≠ [] :=
  ⟨{ pendingCmd with host := [.driveResetN false] }, _, .cmd 0x0C, framedEvents (.command 0x0C), [], rfl, rfl, rfl, rfl,
    rfl, rfl, by decide⟩

/-- A pending request with the shadow on the last position meets the invariant. -/
theorem witness_Inv : State.Inv { shadowAt 5 83 with
    rqbuf := [0x02, 0x0C], status := { (shadowAt 5 83).status with busy := true } } where
  cursor := fun _ => by decide
  transport := by decide
  raster := rfl
  display := rfl
  errcode := fun _ => rfl
  wires := rfl
  busy := fun _ => by decide
  partialRequest := fun h => by cases h
  held := fun h => by cases h

theorem witness_StepKeepsInvariant : ∃ t, step { shadowAt 5 83 with
    rqbuf := [0x02, 0x0C], status := { (shadowAt 5 83).status with busy := true } } = .next t := ⟨_, rfl⟩

theorem witness_DecodeEncode : (Instr.line 0xFF 0xFF 2 [0x41, 0x00]).wf = true ∧ (Instr.line 0 0 0 []).wf = true ∧
    (Instr.reserved 0x09).wf = true ∧ (Instr.reserved 0xFF).wf = true := by decide

theorem witness_EncodeDecode : decode [0x04, 0x05, 0x53, 0x05] = .ok (.cursor 5 83, [0x05]) := by decide

theorem witness_StepRunsPendingRequest : pendingCmd.aboutToRun = true ∧ decode pendingCmd.rqbuf = .ok (.cmd 0x0C, []) := by
  decide

/-- The three cases of a handshake: a byte is missing, the request is instant, the request is pending. -/
theorem witness_StepAcceptsByte : ready.reqReady = true ∧
    requestLength (ready.rqbuf ++ [0x02]) ≠ some (ready.rqbuf.length + 1) ∧
    decode (ready.rqbuf ++ [0x00]) = .ok (.nop, []) ∧ decode (ready.rqbuf ++ [0xFF]) = .ok (.reserved 0xFF, []) ∧
    decode (ready.rqbuf ++ [0x05]) = .ok (.clear, []) := by decide

theorem witness_NoByteAcceptedWhileBusy : ∃ t, step { pendingCmd with host := [.send 0x05] } = .next t := ⟨_, rfl⟩

theorem witness_PartialRequestWaits : ({ ready with rqbuf := [0x06, 0x00] } : State).resetN = true ∧
    ({ ready with rqbuf := [0x06, 0x00] } : State).status.busy = false ∧
    ({ ready with rqbuf := [0x06, 0x00] } : State).host = [] := by decide

/-- An ended run whose host still reads, waits or redrives `RESET_N`, and one with nothing to do (R172). -/
theorem witness_PartialRequestWaits_ended : ready.resetN = true ∧ ready.finished = true ∧
    ({ ready with host := [.read 0] } : State).finished = true ∧
    ({ ready with host := [.awaitReady] } : State).finished = true ∧
    ({ ready with host := [.driveResetN true] } : State).finished = true := by decide

/-- R172: a byte still to send, anywhere in the list, or a partial request keeps a run open. -/
theorem test_run_open : ({ ready with host := [.read 0, .send 0x05] } : State).finished = false ∧
    ({ ready with rqbuf := [0x06, 0x00] } : State).finished = false := by decide

/-- Correct use that leaves no error. -/
theorem witness_NoErrorMeansCorrectUse : ∃ t, exec .clear ready = .next t ∧ ready.noErrors = true ∧
    isReserved .clear = false ∧ ready.status.initDone = true := ⟨_, rfl, by decide⟩

/-- A request that becomes pending and one that is executed at its last byte. -/
theorem witness_RequestSentByteByByte : (Instr.char 5 20 0x41).wf = true ∧ (Instr.wrctrl 0xFE).wf = true ∧
    ready.resetN = true ∧ ready.status.busy = false ∧ ready.rqbuf = [] ∧
    (encode (.wrctrl 0xFE)).head? = some 0x08 := by decide

theorem witness_TransmitWireEdges : ready.pins.sclk = false ∧
    (transmit 0xA5 ready).trace = ready.trace ++ byteEvents 0xA5 := by decide

theorem witness_AdvanceCursorOrder : (shadowAt 5 83).status.curValid = true ∧ (shadowAt 5 83).curRow.toNat < 6 ∧
    (shadowAt 5 83).curCol.toNat < 84 ∧ ready.status.curValid = false := by decide

/-- Every request on every state has a next state, so the hypothesis `exec i s = .next t` is met by each. -/
theorem witness_exec (i : Instr) : ∃ t, exec i ready = .next t := Laws.exec_next i ready

theorem witness_NopResult : ({ ready with host := [.send 0x00] } : State).reqReady = true ∧
    ({ ready with host := [.send 0x00] } : State).rqbuf = [] := by decide

theorem witness_ReservedResult : 0x09 ≤ (0x09 : Byte).toNat ∧ 0x09 ≤ (0xFF : Byte).toNat := by decide

/-- In range on the last position; out of range by one row, by one column. -/
theorem witness_CursorResult : (5 : Byte).toNat < 6 ∧ (83 : Byte).toNat < 84 ∧ 6 ≤ (6 : Byte).toNat ∧
    84 ≤ (84 : Byte).toNat := by decide

/-- Drawable at both ends; below, above and at the gap. -/
theorem witness_GlyphAddressRule : (0x20 ≤ (0x7E : Byte).toNat ∧ (0x7E : Byte).toNat ≤ 0x7E ∧ (0x7E : Byte).toNat ≠ 0x40) ∧
    (0x1F : Byte).toNat < 0x20 ∧ 0x7E < (0x7F : Byte).toNat ∧ (0x40 : Byte).toNat = 0x40 := by decide

theorem witness_RomAddressSpace : (284 : RomAddr).toNat < 285 ∧ 285 ≤ (285 : RomAddr).toNat := by decide

/-- On the surface at its last column; off it by one column, by one row. -/
theorem witness_CharResult : (5 : Byte).toNat < 6 ∧
    (if pixelMode.cidx then (83 : Byte).toNat * 4 else (83 : Byte).toNat) < 84 ∧
    84 ≤ (if pixelMode.cidx then (84 : Byte).toNat * 4 else (84 : Byte).toNat) ∧ 6 ≤ (6 : Byte).toNat := by decide

/-- A text with a character that starts on the surface; a text that ends at once. -/
theorem witness_LineResult : (5 : Byte).toNat < 6 ∧ drawnText 83 2 [0x41, 0x42] = [0x41] ∧
    drawnText 84 1 [0x41] = [] ∧ drawnText 0 2 [0x00, 0x41] = [] := by decide

theorem witness_LineIsCharThenLine : pixelMode.cidx = false ∧ pixelMode.status.initDone = true ∧
    (0x41 : Byte) ≠ 0x00 ∧ (83 : Byte).toNat < 84 ∧ (2 : Byte).toNat = [(0x42 : Byte)].length + 1 := by decide

/-- An error is recorded, and the host's next action is not block reset. -/
theorem witness_ErrorsSticky :
    let s : State := { ready with
      status := { ready.status with errPreinit := true }, errcode := 0x05, host := [.send 0xFF] }
    s.resetN = true ∧ (∀ rest, s.host ≠ .driveResetN false :: rest) ∧ (∃ t, step s = .next t) ∧
      s.status.errPreinit = true := by
  refine ⟨rfl, fun rest h => ?_, ⟨_, rfl⟩, rfl⟩
  cases h

theorem witness_RegisterReads : ({ ready with host := [.read 4] } : State).resetN = true ∧
    ({ ready with host := [.read 4] } : State).status.busy = false := by decide

theorem witness_ReadWhileBusy : ∃ t, pendingCmd.status.busy = true ∧ decode pendingCmd.rqbuf = .ok (.cmd 0x0C, []) ∧
    exec (.cmd 0x0C) pendingCmd = .next t ∧ pendingCmd.resetN = true := ⟨_, rfl, rfl, rfl, rfl⟩

/-- The receiver as `ready` leaves it: out of reset, nothing known. -/
def listener : Receiver := ⟨ready.pins, [], none, none, [], false⟩

/-- Display RST low with nothing known, and RST high. -/
theorem witness_ReceiverSeesWireTrace : Receiver.atReset = Receiver.atReset.lost ∧
    Receiver.atReset.pins.rst = false ∧ listener.pins.rst = true := by decide

theorem witness_ShadowTracksReceiver :
    Tracks { listener with y := some 5, x := some 83 } (shadowAt 5 83) ∧ Tracks Receiver.atReset State.reset ∧
      ((shadowAt 5 83).status.curValid = true → (shadowAt 5 83).curRow.toNat < 6 ∧ (shadowAt 5 83).curCol.toNat < 84) :=
  ⟨⟨rfl, rfl, rfl, fun _ => ⟨rfl, fun _ => ⟨rfl, rfl⟩⟩⟩, ⟨rfl, rfl, rfl, fun h => by cases h⟩, fun _ => by decide⟩

/-- Two clauses of the wire trace at the first write that changes a level and at one that does not. -/
theorem witness_WireTraceLevels :
    wireTrace State.reset.pins [.set .sdin false, .set .sclk true] = [] ++ Event.set .sclk true :: [] ∧
      (pinsAfter State.reset.pins []).get .sclk ≠ true ∧ (pinsAfter State.reset.pins []).get .sdin = false := by decide

/-- CLEAR, with a listening receiver and no error at the end (R154). -/
theorem witness_ClearOnDisplay : ∃ t es, Listening listener ready ∧ exec .clear ready = .next t ∧ t.noErrors = true ∧
    t.trace = ready.trace ++ es :=
  ⟨_, _, ⟨rfl, rfl, rfl, rfl⟩, Laws.exec_clear ready, by decide, rfl⟩

theorem witness_CharOnDisplay : ∃ t es, Listening listener pixelMode ∧ exec (.char 5 80 0x42) pixelMode = .next t ∧
    t.noErrors = true ∧ t.trace = pixelMode.trace ++ es ∧ (5 : Byte).toNat < 6 ∧ (80 : Nat) + 3 < 84 :=
  ⟨_, _, ⟨rfl, rfl, rfl, rfl⟩, Laws.exec_char 5 80 0x42 pixelMode (by decide) (by decide), by decide, rfl, by decide⟩

/-- At the last column, where no blank fits, and at column 80, where it just fits. -/
theorem witness_LineOnDisplay : ∃ t u es fs, Listening listener pixelMode ∧
    exec (.line 5 83 2 [0x41, 0x42]) pixelMode = .next t ∧ t.noErrors = true ∧ t.trace = pixelMode.trace ++ es ∧
    (drawnText 83 2 [0x41, 0x42])[0]? = some 0x41 ∧
    exec (.line 5 76 2 [0x41, 0x42]) pixelMode = .next u ∧ u.noErrors = true ∧ u.trace = pixelMode.trace ++ fs ∧
    (drawnText 76 2 [0x41, 0x42])[1]? = some 0x42 ∧ (76 : Nat) + 4 * 1 + 3 < 84 :=
  ⟨_, _, _, _, ⟨rfl, rfl, rfl, rfl⟩, Laws.exec_line 5 83 2 [0x41, 0x42] pixelMode, by decide, rfl, by decide,
    Laws.exec_line 5 76 2 [0x41, 0x42] pixelMode, by decide, rfl, by decide, by decide⟩

/-- CMD 0x80 and DATA with the cursor unknown, both with no error at the end; INIT. -/
theorem witness_RawCommandsLoseCursor : ∃ t u v, Listening listener ready ∧ exec (.cmd 0x80) ready = .next t ∧
    t.noErrors = true ∧ t.trace = ready.trace ++ framedEvents (.command 0x80) ∧ exec .init ready = .next u ∧
    exec (.data 0x55) ready = .next v ∧ v.noErrors = true ∧ v.trace = ready.trace ++ framedEvents (.data 0x55) ∧
    listener.y = none :=
  ⟨_, _, _, ⟨rfl, rfl, rfl, rfl⟩, rfl, rfl, rfl, rfl, rfl, rfl, rfl, rfl⟩

theorem witness_RawCommandsLoseCursor_init : ∃ u es, exec .init ready = .next u ∧ u.trace = ready.trace ++ es :=
  ⟨_, _, (Laws.exec_init ready).trans (congrArg _ (Laws.initialise_eq _ _ _)), by
    simp only [Laws.afterEvents]
    split <;> rfl⟩

theorem witness_DataOnDisplay : ∃ t, Listening { listener with y := some 5, x := some 83 } (shadowAt 5 83) ∧
    exec (.data 0x01) (shadowAt 5 83) = .next t ∧ t.noErrors = true ∧
    t.trace = (shadowAt 5 83).trace ++ framedEvents (.data 0x01) :=
  ⟨_, ⟨rfl, rfl, rfl, rfl⟩, rfl, rfl, rfl⟩

theorem witness_ResetLevelRedriven : ({ ready with host := [.driveResetN true] } : State).resetN = true ∧
    (held (.driveResetN false)).resetN = false ∧ (held (.driveResetN false)).host = .driveResetN false :: [] ∧
    ({ held .awaitReady with host := [] } : State).resetN = false := by decide

/-- R65, R164: the byte 0x80 of a CMD does not set the device cursor; the same byte of a cursor pair does. -/
theorem test_raw_command :
    let r : Receiver := { listener with y := some 2, x := some 10 }
    ((r.request (.cmd 0x80) (framedEvents (.command 0x80))).x, (r.request .clear (framedEvents (.command 0x80))).x) =
      (none, some 0) := by decide

theorem witness_DisplayMemoryCanonical :
    Memory.wf ({ listener with mem := [(0, 0x00), (503, 0xFF)] } : Receiver).mem = true := by decide

end Sys2Proof.Tests
end

section
/-! SUPPORT. The wire trace event by event and over a list that goes on (R14), and the receiver on the wire (R66). -/

namespace Sys2Proof.Proofs
open Sys2Proof.Machine Sys2Proof.Laws

theorem put_get (p : Pins) (pin : Pin) : p.put pin (p.get pin) = p := by
  cases pin <;> rfl

/-! The wire trace, one equation per event. -/

@[simp] theorem wireTrace_nil (p : Pins) : wireTrace p [] = [] := rfl

@[simp] theorem wireTrace_hold (p : Pins) (d : Nat) (es : List Event) :
    wireTrace p (.hold d :: es) = .hold d :: wireTrace p es := rfl

theorem wireTrace_set_kept {p : Pins} {pin : Pin} {v : Bool} (h : p.get pin ≠ v) (es : List Event) :
    wireTrace p (.set pin v :: es) = .set pin v :: wireTrace (p.put pin v) es := if_neg h

theorem wireTrace_set_removed {p : Pins} {pin : Pin} {v : Bool} (h : p.get pin = v) (es : List Event) :
    wireTrace p (.set pin v :: es) = wireTrace p es := if_pos h

/-- The wire trace of a list that goes on: the rest is seen from the levels its first part leaves. -/
theorem wireTrace_append (p : Pins) (xs ys : List Event) :
    wireTrace p (xs ++ ys) = wireTrace p xs ++ wireTrace (pinsAfter p xs) ys := by
  induction xs generalizing p with
  | nil => rfl
  | cons e xs ih =>
    cases e with
    | hold d => simp [ih]
    | set pin v =>
      by_cases h : p.get pin = v
      · subst h
        simp [wireTrace_set_removed, ih, put_get]
      · simp [wireTrace_set_kept h, ih]

theorem pinsAfter_wireTrace (p : Pins) (es : List Event) : pinsAfter p (wireTrace p es) = pinsAfter p es := by
  induction es generalizing p with
  | nil => rfl
  | cons e es ih =>
    cases e with
    | hold d => simp [ih]
    | set pin v =>
      by_cases h : p.get pin = v
      · subst h
        simp [wireTrace_set_removed, ih, put_get]
      · simp [wireTrace_set_kept h, ih]

theorem wireTrace_idem (p : Pins) (es : List Event) : wireTrace p (wireTrace p es) = wireTrace p es := by
  induction es generalizing p with
  | nil => rfl
  | cons e es ih =>
    cases e with
    | hold d => simp [ih]
    | set pin v =>
      by_cases h : p.get pin = v
      · rw [wireTrace_set_removed h, ih]
      · rw [wireTrace_set_kept h, wireTrace_set_kept h, ih]

theorem wireTrace_sublist (p : Pins) (es : List Event) : (wireTrace p es).Sublist es := by
  induction es generalizing p with
  | nil => exact .slnil
  | cons e es ih =>
    cases e with
    | hold d => exact (ih p).cons_cons _
    | set pin v =>
      by_cases h : p.get pin = v
      · rw [wireTrace_set_removed h]
        exact (ih p).cons _
      · rw [wireTrace_set_kept h]
        exact (ih _).cons_cons _

/-- Every write of a wire trace changes its pin's level: taking the wire trace again would remove one that does not. -/
theorem wireTrace_writes_change {p : Pins} {es xs ys : List Event} {pin : Pin} {v : Bool}
    (h : wireTrace p es = xs ++ .set pin v :: ys) : (pinsAfter p xs).get pin ≠ v := by
  intro hv
  have idem := wireTrace_idem p es
  rw [h, wireTrace_append, wireTrace_set_removed hv] at idem
  have hx := (wireTrace_sublist p xs).length_le
  have hy := (wireTrace_sublist (pinsAfter p xs) ys).length_le
  have hl := congrArg List.length idem
  simp only [List.length_append, List.length_cons] at hl
  omega

/-- Settles O41: the wire trace splits at every place of the list, so each clause is the equation of the event there. -/
theorem wireTraceLevels : Obligations.WireTraceLevels := by
  refine ⟨fun p es => ⟨pinsAfter_wireTrace p es, wireTrace_idem p es⟩, fun _ _ _ _ _ _ h => wireTrace_writes_change h,
    fun p xs ys => ⟨fun d => ?_, fun pin v => ⟨fun h => ?_, fun h => ?_⟩⟩⟩
  · rw [wireTrace_append, wireTrace_hold]
  · rw [wireTrace_append, wireTrace_set_kept h]
  · rw [wireTrace_append, wireTrace_set_removed h]

/-! The receiver on the wire. -/

/-- While `RST` is low the receiver knows nothing (R157). -/
def LostWhileReset (r : Receiver) : Prop := r.pins.rst = false → r = r.lost

theorem event_pins (r : Receiver) (e : Event) : (r.event e).pins = pinsAfterEvent r.pins e := run_pins r [e]

theorem lostWhileReset_event {r : Receiver} (h : LostWhileReset r) (e : Event) : LostWhileReset (r.event e) := by
  cases e with
  | hold d => exact h
  | set pin v =>
    intro hr
    rw [event_pins, pinsAfterEvent] at hr
    rw [Receiver.event, if_pos hr]
    rfl

/-- A write of the level the pin already has is no edge (R14, R66). -/
theorem event_redundant {r : Receiver} (h : LostWhileReset r) {pin : Pin} {v : Bool} (hv : r.pins.get pin = v) :
    r.event (.set pin v) = r := by
  subst hv
  rw [Receiver.event, put_get]
  by_cases hr : r.pins.rst = false
  · rw [if_pos hr]
    exact (h hr).symm
  · rw [if_neg hr, if_neg]
    rintro ⟨rfl, high, low⟩
    exact absurd (high.symm.trans low) (by decide)

/-- Settles O42, by induction on the events: a removed write leaves the receiver as it is, a kept one is the same event
on both sides. -/
theorem receiverSeesWireTrace : Obligations.ReceiverSeesWireTrace := by
  intro r es h
  induction es generalizing r with
  | nil => rfl
  | cons e es ih =>
    have rest := ih (r.event e) (lostWhileReset_event h e)
    rw [event_pins] at rest
    cases e with
    | hold d => exact rest
    | set pin v =>
      by_cases hv : r.pins.get pin = v
      · rw [wireTrace_set_removed hv, run_cons, event_redundant h hv]
        exact ih r h
      · rw [wireTrace_set_kept hv, run_cons, run_cons]
        exact rest

end Sys2Proof.Proofs
end

section
/-! SUPPORT. Every request in one closed form: the events of its framed bytes, and the registers it leaves. -/

namespace Sys2Proof.Proofs
open Sys2Proof.Machine Sys2Proof.Laws

/-- The framed bytes of a request in a state (R98): those of its own meaning, none where it is clipped or out of
range. -/
def requestFrames (s : State) : Instr → List Framed
  | .nop => []
  | .init => Config.initSeq.map .command
  | .cmd imm8 => [.command imm8]
  | .data imm8 => [.data imm8]
  | .cursor row x => if row.toNat < rows ∧ x.toNat < width then cursorFrames row x else []
  | .clear => clearFrames
  | .char row col ch =>
    if row.toNat < rows ∧ pixelColumn s.cidx col < width then glyphFrames row (pixelColumn s.cidx col) ch else []
  | .line row col len text =>
    if row.toNat < rows then cellsFrames row (lineCells (pixelColumn s.cidx col) (text.take len.toNat)) else []
  | .wrctrl _ => []
  | .reserved _ => []

/-- The events of a request: the reset pulse if it is INIT, then its framed bytes (R98, R100). -/
def requestEvents (s : State) (i : Instr) : List Event :=
  (if i = .init then resetPulse rstHold else []) ++ framesEvents (requestFrames s i)

theorem requestEvents_of_ne_init {i : Instr} (s : State) (h : i ≠ .init) :
    requestEvents s i = framesEvents (requestFrames s i) := by
  rw [requestEvents, if_neg h, List.nil_append]

/-- The registers after the cells of a line, whose last one places the shadow cursor (R128). -/
def afterLineRegisters (row : Byte) (cells : List (Nat × Byte)) (s : State) : State :=
  if row.toNat < rows then cells.getLast?.elim s fun p => endAt row p.1 s else s

/-- What INIT leaves in the registers (R100). -/
def initRegisters (s : State) : State :=
  { (if Config.initSeq = [] then s else idleTransport s) with
    status := { s.status with curValid := false, initDone := true } }

/-- The state after a request but for pins and trace, which its events give (`exec_eq`). -/
def requestRegisters (s : State) : Instr → State
  | .nop => s
  | .init => initRegisters (afterInitCheck s)
  | .cmd _ => idleTransport (invalidateCursor (afterProtocolCheck 0x02 s))
  | .data _ => idleTransport (advanceCursor (afterProtocolCheck 0x03 s))
  | .cursor row x =>
    if row.toNat < rows ∧ x.toNat < width then placeCursor row x (afterProtocolCheck 0x04 s)
    else afterProtocolCheck 0x04 s
  | .clear => placeCursor 0 0 (afterProtocolCheck 0x05 s)
  | .char row col _ =>
    endRaster (if row.toNat < rows ∧ pixelColumn s.cidx col < width then
      endAt row (pixelColumn s.cidx col) (afterProtocolCheck 0x06 s)
    else afterProtocolCheck 0x06 s)
  | .line row col len text =>
    endRaster (afterLineRegisters row (lineCells (pixelColumn s.cidx col) (text.take len.toNat))
      (afterProtocolCheck 0x07 s))
  | .wrctrl imm8 => { s with cidx := imm8.getLsbD 0 }
  | .reserved op => raiseErr .badop op s

theorem endRaster_afterEvents (es : List Event) (s : State) :
    endRaster (afterEvents es s) = afterEvents es (endRaster s) := rfl

theorem afterLine_eq (row : Byte) (cells : List (Nat × Byte)) (s : State) :
    afterLine row cells s =
      afterEvents (framesEvents (if row.toNat < rows then cellsFrames row cells else []))
        (afterLineRegisters row cells s) := by
  unfold afterLine afterLineRegisters
  split
  · rw [afterCells_eq]
    cases cells.getLast? <;> rfl
  · exact (afterEvents_nil s).symm

/-- Every request answers the state its events and its registers give. -/
theorem exec_eq (i : Instr) (s : State) :
    exec i s = .next (afterEvents (requestEvents s i) (requestRegisters s i)) := by
  cases i with
  | nop => exact congrArg _ (afterEvents_nil s).symm
  | init => exact (exec_init s).trans (congrArg _ (initialise_eq _ _ _))
  | cmd imm8 => rw [exec_cmd, requestEvents_of_ne_init _ (by simp)]; simp [requestFrames, requestRegisters]
  | data imm8 => rw [exec_data, requestEvents_of_ne_init _ (by simp)]; simp [requestFrames, requestRegisters]
  | cursor row x =>
    rw [requestEvents_of_ne_init _ (by simp), requestFrames, requestRegisters]
    by_cases h : row.toNat < rows ∧ x.toNat < width
    · rw [exec_cursor _ _ _ h.1 h.2, if_pos h, if_pos h]
    · rw [exec_cursor_outside _ _ _ (by omega), if_neg h, if_neg h, framesEvents_nil, afterEvents_nil]
  | clear => rw [exec_clear, requestEvents_of_ne_init _ (by simp), requestFrames, requestRegisters]
  | char row col ch =>
    rw [requestEvents_of_ne_init _ (by simp), requestFrames, requestRegisters]
    by_cases h : row.toNat < rows ∧ pixelColumn s.cidx col < width
    · rw [exec_char _ _ _ _ h.1 h.2, if_pos h, if_pos h, afterGlyph_eq, endRaster_afterEvents]
    · rw [exec_char_clipped _ _ _ _ (by omega), if_neg h, if_neg h, framesEvents_nil, afterEvents_nil]
  | line row col len text =>
    rw [exec_line, afterLine_eq, endRaster_afterEvents, requestEvents_of_ne_init _ (by simp), requestFrames,
      requestRegisters]
  | wrctrl imm8 => exact (exec_wrctrl imm8 s).trans (congrArg _ (afterEvents_nil _).symm)
  | reserved op => exact (exec_reserved op s).trans (congrArg _ (afterEvents_nil _).symm)

theorem exec_eq_next {i : Instr} {s t : State} (h : exec i s = .next t) :
    t = afterEvents (requestEvents s i) (requestRegisters s i) := by
  rw [exec_eq] at h
  cases h
  rfl

end Sys2Proof.Proofs
end

section
/-! SUPPORT. The registers of a request come about by single writes, so that what every write keeps, every request
keeps. -/

namespace Sys2Proof.Proofs
open Sys2Proof.Machine Sys2Proof.Laws

/-- The shadow cursor at a position, valid (R106). -/
def setShadow (r : BitVec 3) (c : BitVec 7) (s : State) : State :=
  { s with curRow := r, curCol := c, status := { s.status with curValid := true } }

/-- `STATUS.INIT_DONE <- 1` (R100). -/
def setInitDone (s : State) : State := { s with status := { s.status with initDone := true } }

/-- One write of registers by the request `i` (R45): only INIT writes `INIT_DONE`, only WRCTRL writes `CIDX`, and the
shadow cursor is only ever set on the surface. -/
inductive RegisterWrite : Instr → State → State → Prop
  | error {i : Instr} (e : ErrorCode) (op : Byte) (s : State) : RegisterWrite i s (raiseErr e op s)
  | idle {i : Instr} (s : State) : RegisterWrite i s (idleTransport s)
  | invalidate {i : Instr} (s : State) : RegisterWrite i s (invalidateCursor s)
  | advance {i : Instr} (s : State) : RegisterWrite i s (advanceCursor s)
  | place {i : Instr} {r : BitVec 3} {c : BitVec 7} (hr : r.toNat < rows) (hc : c.toNat < width) (s : State) :
    RegisterWrite i s (setShadow r c s)
  | noRaster {i : Instr} (s : State) : RegisterWrite i s (endRaster s)
  | initDone (s : State) : RegisterWrite .init s (setInitDone s)
  | cidx (imm8 : Byte) (s : State) : RegisterWrite (.wrctrl imm8) s { s with cidx := imm8.getLsbD 0 }

/-- Writes of the request `i`, one after the other. -/
abbrev RegisterWrites (i : Instr) : State → State → Prop := Relation.ReflTransGen (RegisterWrite i)

theorem accept_writes (i : Instr) (op : Byte) (s : State) : RegisterWrites i s (accept op s) := by
  unfold accept
  split
  · exact .single (.error ..)
  · split
    · exact .single (.error ..)
    · split
      · exact .single (.error ..)
      · exact .refl

theorem afterProtocolCheck_writes (i : Instr) {op : Byte} (h : 2 ≤ op.toNat ∧ op.toNat ≤ 7) (s : State) :
    RegisterWrites i s (afterProtocolCheck op s) :=
  accept_protocol h s ▸ accept_writes i op s

theorem placeCursor_writes (i : Instr) {r x : Byte} (hr : r.toNat < rows) (hx : x.toNat < width) (s : State) :
    RegisterWrites i s (placeCursor r x s) := by
  have h3 : (r.setWidth 3).toNat < rows := by
    simp only [rows, BitVec.toNat_setWidth] at *; omega
  have h7 : (x.setWidth 7).toNat < width := by
    simp only [width, BitVec.toNat_setWidth] at *; omega
  exact .tail (.single (.idle s)) (.place h3 h7 _)

/-- A drawn glyph leaves the shadow on the surface, wherever it is drawn (R120). -/
theorem endAt_writes (i : Instr) (row : Byte) (px : Nat) (s : State) : RegisterWrites i s (endAt row px s) := by
  have hr : (glyphEndRow row px).toNat < rows := by
    simp only [glyphEndRow, rows, BitVec.toNat_ofNat]; omega
  have hc : (glyphEndCol row px).toNat < width := by
    simp only [glyphEndCol, width, BitVec.toNat_ofNat]; omega
  exact .tail (.single (.idle s)) (.place hr hc _)

theorem afterLineRegisters_writes (i : Instr) (row : Byte) (cells : List (Nat × Byte)) (s : State) :
    RegisterWrites i s (afterLineRegisters row cells s) := by
  unfold afterLineRegisters
  split
  · cases cells.getLast? with
    | none => exact .refl
    | some p => exact endAt_writes i row p.1 s
  · exact .refl

theorem initRegisters_eq (s : State) : initRegisters s =
    setInitDone (invalidateCursor (if Config.initSeq = [] then s else idleTransport s)) := by
  unfold initRegisters
  split <;> rfl

theorem initRegisters_writes (s : State) : RegisterWrites .init s (initRegisters s) := by
  have idle : RegisterWrites .init s (if Config.initSeq = [] then s else idleTransport s) := by
    split
    · exact .refl
    · exact .single (.idle s)
  rw [initRegisters_eq]
  exact (idle.tail (.invalidate _)).tail (.initDone _)

/-- The registers of every request come about by its writes. -/
theorem requestRegisters_writes (i : Instr) (s : State) : RegisterWrites i s (requestRegisters s i) := by
  have check : ∀ {op : Byte}, 2 ≤ op.toNat ∧ op.toNat ≤ 7 → RegisterWrites i s (afterProtocolCheck op s) :=
    fun h => afterProtocolCheck_writes i h s
  cases i with
  | nop => exact .refl
  | init => exact (accept_init s ▸ accept_writes .init 0x01 s).trans (initRegisters_writes _)
  | cmd imm8 => exact ((check (by decide)).tail (.invalidate _)).tail (.idle _)
  | data imm8 => exact ((check (by decide)).tail (.advance _)).tail (.idle _)
  | cursor row x =>
    rw [requestRegisters]
    split
    · next h => exact (check (by decide)).trans (placeCursor_writes _ h.1 h.2 _)
    · exact check (by decide)
  | clear => exact (check (by decide)).trans (placeCursor_writes _ (by decide) (by decide) _)
  | char row col ch =>
    rw [requestRegisters]
    refine .tail ?_ (.noRaster _)
    split
    · exact (check (by decide)).trans (endAt_writes _ row _ _)
    · exact check (by decide)
  | line row col len text => exact ((check (by decide)).trans (afterLineRegisters_writes _ row _ _)).tail (.noRaster _)
  | wrctrl imm8 => exact .single (.cidx imm8 s)
  | reserved op => exact .single (.error .badop op s)

/-- What every write of the request keeps, the request's registers keep. -/
theorem requestRegisters_keeps {P : State → Prop} {i : Instr} {s : State}
    (keeps : ∀ t u, RegisterWrite i t u → P t → P u) (h : P s) : P (requestRegisters s i) := by
  have writes := requestRegisters_writes i s
  generalize requestRegisters s i = t at writes ⊢
  induction writes with
  | refl => exact h
  | tail _ write ih => exact keeps _ _ write ih

/-! What a request leaves unchanged. -/

/-- The registers of `u`, with all that no register write touches as in `s`: pins, trace, BUSY, `RQBUF`, the level of
`RESET_N` and the host's side. -/
def registersOver (s u : State) : State :=
  { u with
    pins := s.pins, trace := s.trace, rqbuf := s.rqbuf, resetN := s.resetN, host := s.host, lastRead := s.lastRead,
    earlier := s.earlier, draws := s.draws, status := { u.status with busy := s.status.busy } }

theorem write_frame {i : Instr} {s t : State} (h : RegisterWrite i s t) : t = registersOver s t := by
  cases h with
  | error e op => cases e <;> rfl
  | advance => rw [advanceCursor_eq]; rfl
  | _ => rfl

theorem requestRegisters_frame (i : Instr) (s : State) :
    requestRegisters s i = registersOver s (requestRegisters s i) := by
  refine requestRegisters_keeps (P := fun u => u = registersOver s u) ?_ rfl
  intro t u write ht
  have hu := write_frame write
  rw [ht] at hu
  exact hu

section
variable (i : Instr) (s : State)
@[simp] theorem requestRegisters_pins : (requestRegisters s i).pins = s.pins := by
  rw [requestRegisters_frame]; rfl
@[simp] theorem requestRegisters_trace : (requestRegisters s i).trace = s.trace := by
  rw [requestRegisters_frame]; rfl
@[simp] theorem requestRegisters_resetN : (requestRegisters s i).resetN = s.resetN := by
  rw [requestRegisters_frame]; rfl
end

/-- `INIT_DONE` is INIT's (R30, R45). -/
theorem requestRegisters_initDone (i : Instr) (s : State) :
    (requestRegisters s i).status.initDone = if i = .init then true else s.status.initDone := by
  split
  · next h => subst h; rfl
  · next h =>
    refine requestRegisters_keeps (P := fun u => u.status.initDone = s.status.initDone) ?_ rfl
    intro t u write ht
    cases write with
    | error e op => cases e <;> exact ht
    | advance => rw [advanceCursor_status, ht]
    | initDone => exact absurd rfl h
    | _ => exact ht

/-- Settles O19: the framed bytes are `requestFrames`; pins and trace are the events' alone. -/
theorem requestEmitsFramedBytes : Obligations.RequestEmitsFramedBytes := by
  intro i s t h
  obtain rfl := exec_eq_next h
  refine ⟨requestFrames s i, ?_, ?_⟩
  · rw [afterEvents_trace, requestRegisters_trace, requestEvents]
  · rw [afterEvents_pins, requestRegisters_pins, requestEvents]

/-! The levels a request leaves. -/

theorem pinsAfter_requestEvents_sclk (i : Instr) (s : State) {p : Pins} (h : p.sclk = false) :
    (pinsAfter p (requestEvents s i)).sclk = false := by
  rw [requestEvents, pinsAfter_append]
  apply pinsAfter_frames_sclk
  split
  · exact h
  · exact h

theorem pinsAfter_requestEvents_rst (i : Instr) (s : State) (p : Pins) :
    (pinsAfter p (requestEvents s i)).rst = if i = .init then true else p.rst := by
  rw [requestEvents, pinsAfter_append, pinsAfter_frames_rst]
  split <;> rfl

end Sys2Proof.Proofs
end

section
/-! SUPPORT. The length of a request that still lacks bytes (R71). -/

namespace Sys2Proof.Proofs
open Sys2Proof.Machine Sys2Proof.Laws

/-- The length of LINE is fixed by its fourth byte (R71). -/
theorem requestLength_line {op : Byte} (h : op.toNat = 7) (rest : List Byte) :
    requestLength (op :: rest) = rest[2]?.map fun len => 4 + len.toNat := by
  obtain rfl : op = 7 := BitVec.eq_of_toNat_eq h
  rcases rest with _ | ⟨_, _ | ⟨_, _ | ⟨_, _⟩⟩⟩ <;> rfl

/-- The length of every other request is fixed by its first byte (R71). -/
theorem requestLength_fixed {op : Byte} (h : op.toNat ≠ 7) :
    ∃ n, 0 < n ∧ ∀ rest, requestLength (op :: rest) = some n := by
  unfold requestLength
  simp only
  split
  case h_9 seven => exact absurd seven h
  all_goals
    refine ⟨_, ?_, fun _ => rfl⟩
    decide

/-- The bytes of a request still lack one, if they fix its length at all (R22, R71). -/
def LacksByte (rq : List Byte) : Prop := ∀ n, requestLength rq = some n → rq.length < n

theorem lacksByte_nil : LacksByte [] := fun _ h => by cases h

/-- One byte more does not exceed the length of the request (R71). -/
theorem length_le_of_lacksByte {rq : List Byte} {b : Byte} {n : Nat} (h : LacksByte rq)
    (hn : requestLength (rq ++ [b]) = some n) : rq.length + 1 ≤ n := by
  cases rq with
  | nil =>
    by_cases h7 : b.toNat = 7
    · rw [List.nil_append, requestLength_line h7] at hn
      cases hn
    · obtain ⟨k, hk, fixed⟩ := requestLength_fixed h7
      rw [List.nil_append, fixed] at hn
      cases hn
      exact hk
  | cons op rest =>
    rw [List.cons_append] at hn
    by_cases h7 : op.toNat = 7
    · rw [requestLength_line h7] at hn
      by_cases hr : 2 < rest.length
      · rw [List.getElem?_append_left hr] at hn
        exact h n ((requestLength_line h7 rest).trans hn)
      · obtain ⟨len, -, rfl⟩ := Option.map_eq_some_iff.mp hn
        simp only [List.length_cons]
        omega
    · obtain ⟨k, -, fixed⟩ := requestLength_fixed h7
      rw [fixed] at hn
      cases hn
      exact h _ (fixed rest)

/-- A byte that does not complete the request leaves it lacking one. -/
theorem lacksByte_append {rq : List Byte} {b : Byte} (h : LacksByte rq) (hc : requestComplete (rq ++ [b]) = false) :
    LacksByte (rq ++ [b]) := by
  intro n hn
  have hle := length_le_of_lacksByte h hn
  have hne : n ≠ (rq ++ [b]).length := by
    rintro rfl
    simp [requestComplete, hn] at hc
  rw [List.length_append, List.length_singleton] at *
  omega

end Sys2Proof.Proofs
end

section
/-! SUPPORT. The invariant over one step: the part of it that speaks of registers, the part that speaks of the pins, and
the states in reset. -/

namespace Sys2Proof.Proofs
open Sys2Proof.Machine Sys2Proof.Laws

/-- The registers as they are between requests: the clauses of `State.Inv` on cursor, transport, working state and
`ERRCODE`. -/
structure RegistersSound (s : State) : Prop where
  cursor : s.status.curValid = true → s.curRow.toNat < rows ∧ s.curCol.toNat < width
  transport : s.shift = 0 ∧ s.bitcnt = 0
  raster : s.raster = none
  errcode : s.status.anyError = false → s.errcode = 0

/-- The pins as they are between requests: the clauses of `State.Inv` on `SCLK`, `RST` and the trace. -/
structure PinsSound (s : State) : Prop where
  sclk : s.pins.sclk = false
  display : s.pins.rst = s.status.initDone
  wires : pinsAfter State.reset.pins s.trace = s.pins

theorem registersSound_of_inv {s : State} (h : s.Inv) : RegistersSound s where
  cursor := h.cursor
  transport := h.transport.2
  raster := h.raster
  errcode := h.errcode

theorem pinsSound_of_inv {s : State} (h : s.Inv) : PinsSound s where
  sclk := h.transport.1
  display := h.display
  wires := h.wires

/-- The invariant of a block out of reset. -/
theorem inv_of_running {s : State} (hr : RegistersSound s) (hp : PinsSound s) (hn : s.resetN = true)
    (busy : s.status.busy = true → requestComplete s.rqbuf = true ∧ instantPending s.rqbuf = false)
    (ready : s.status.busy = false → LacksByte s.rqbuf) : s.Inv where
  cursor := hr.cursor
  transport := ⟨hp.sclk, hr.transport⟩
  raster := hr.raster
  display := hp.display
  errcode := hr.errcode
  wires := hp.wires
  busy := busy
  partialRequest := ready
  held := fun low => by rw [hn] at low; cases low

/-! Requests. -/

theorem setError_anyError (st : Status) (e : ErrorCode) : (st.setError e).anyError = true := by
  cases e <;> simp [Status.setError, Status.anyError]

theorem advanceCursor_on_surface {s : State} (hr : s.curRow.toNat < rows) (hc : s.curCol.toNat < width)
    (hv : s.status.curValid = true) :
    (advanceCursor s).curRow.toNat < rows ∧ (advanceCursor s).curCol.toNat < width := by
  obtain ⟨row, col⟩ := advanceCursor_position s hv hr hc
  rw [row, col]
  exact ⟨Nat.mod_lt _ (by decide), Nat.mod_lt _ (by decide)⟩

theorem write_registersSound {i : Instr} {s t : State} (w : RegisterWrite i s t) (h : RegistersSound s) :
    RegistersSound t := by
  cases w with
  | error e op =>
    refine ⟨?_, h.transport, h.raster, fun noError => ?_⟩
    · cases e <;> exact h.cursor
    · rw [raiseErr_status, setError_anyError] at noError
      cases noError
  | idle => exact ⟨h.cursor, ⟨rfl, rfl⟩, h.raster, h.errcode⟩
  | invalidate => exact ⟨fun valid => (Bool.false_ne_true valid).elim, h.transport, h.raster, h.errcode⟩
  | advance =>
    have onSurface := fun valid => advanceCursor_on_surface (h.cursor valid).1 (h.cursor valid).2 valid
    rw [advanceCursor_eq] at onSurface ⊢
    exact ⟨onSurface, h.transport, h.raster, h.errcode⟩
  | place hr hc => exact ⟨fun _ => ⟨hr, hc⟩, h.transport, h.raster, h.errcode⟩
  | noRaster => exact ⟨h.cursor, h.transport, rfl, h.errcode⟩
  | initDone => exact ⟨h.cursor, h.transport, h.raster, h.errcode⟩
  | cidx imm8 => exact ⟨h.cursor, h.transport, h.raster, h.errcode⟩

theorem exec_registersSound {i : Instr} {s t : State} (he : exec i s = .next t) (h : RegistersSound s) :
    RegistersSound t := by
  obtain rfl := exec_eq_next he
  obtain ⟨cursor, transport, raster, errcode⟩ :=
    requestRegisters_keeps (i := i) (fun _ _ write => write_registersSound write) h
  exact ⟨cursor, transport, raster, errcode⟩

theorem exec_pinsSound {i : Instr} {s t : State} (he : exec i s = .next t) (h : PinsSound s) : PinsSound t := by
  obtain rfl := exec_eq_next he
  constructor
  · rw [afterEvents_pins, requestRegisters_pins]
    exact pinsAfter_requestEvents_sclk i s h.sclk
  · rw [afterEvents_pins, requestRegisters_pins, pinsAfter_requestEvents_rst, afterEvents_status,
      requestRegisters_initDone, h.display]
  · rw [afterEvents_pins, afterEvents_trace, requestRegisters_pins, requestRegisters_trace, pinsAfter_append, h.wires]

/-- The block step ends in a state that meets the invariant: the block is idle again (R22, R40). -/
theorem runPending_inv {s t : State} (h : runPending s = .next t) (hr : RegistersSound s) (hp : PinsSound s)
    (hn : s.resetN = true) : t.Inv := by
  obtain ⟨i, u, -, he, rfl⟩ := runPending_cases h
  have hun : u.resetN = true := by
    obtain rfl := exec_eq_next he
    rw [afterEvents_resetN, requestRegisters_resetN, hn]
  obtain ⟨cursor, transport, raster, errcode⟩ := exec_registersSound he hr
  obtain ⟨sclk, display, wires⟩ := exec_pinsSound he hp
  exact inv_of_running ⟨cursor, transport, raster, errcode⟩ ⟨sclk, display, wires⟩ hun
    (fun busy => (Bool.false_ne_true busy).elim) fun _ => lacksByte_nil

/-! Handshakes. -/

/-- The state after the last byte of a request: BUSY is set (R22). -/
def withLastByte (b : Byte) (s : State) : State :=
  { s with rqbuf := s.rqbuf ++ [b], status := { s.status with busy := true } }

/-- Every case of a handshake that answers a next state: a byte is still missing, a request is pending, or a request
of R29 has been executed. -/
theorem acceptByte_cases {b : Byte} {s t : State} (h : acceptByte b s = .next t) :
    (requestComplete (s.rqbuf ++ [b]) = false ∧ t = { s with rqbuf := s.rqbuf ++ [b] }) ∨
    (requestComplete (s.rqbuf ++ [b]) = true ∧ instantPending (s.rqbuf ++ [b]) = false ∧ t = withLastByte b s) ∨
    runPending (withLastByte b s) = .next t := by
  unfold acceptByte at h
  simp only at h
  split at h
  · next complete =>
    split at h
    · exact .inr (.inr h)
    · next pending =>
      cases h
      exact .inr (.inl ⟨complete, Bool.eq_false_iff.mpr pending, rfl⟩)
  · next missing =>
    cases h
    exact .inl ⟨Bool.eq_false_iff.mpr missing, rfl⟩

theorem acceptByte_inv {b : Byte} {s t : State} (hs : s.Inv) (hn : s.resetN = true) (hb : s.status.busy = false)
    (h : acceptByte b s = .next t) : t.Inv := by
  obtain ⟨cursor, transport, raster, errcode⟩ := registersSound_of_inv hs
  obtain ⟨sclk, display, wires⟩ := pinsSound_of_inv hs
  obtain ⟨missing, rfl⟩ | ⟨complete, pending, rfl⟩ | run := acceptByte_cases h
  · exact inv_of_running ⟨cursor, transport, raster, errcode⟩ ⟨sclk, display, wires⟩ hn
      (fun busy => by rw [hb] at busy; cases busy) fun _ => lacksByte_append (hs.partialRequest hb) missing
  · exact inv_of_running ⟨cursor, transport, raster, errcode⟩ ⟨sclk, display, wires⟩ hn
      (fun _ => ⟨complete, pending⟩) fun ready => by cases ready
  · exact runPending_inv run ⟨cursor, transport, raster, errcode⟩ ⟨sclk, display, wires⟩ hn

/-! Host steps and reset. -/

/-- The host's list, the record of its reads and the number of draws have no part in the invariant. -/
theorem inv_host {s : State} (h : s.Inv) (host : List HostAction) (lastRead : Option (RegAddr × Byte)) (draws : Nat) :
    State.Inv { s with host := host, lastRead := lastRead, draws := draws } := by
  obtain ⟨cursor, transport, raster, display, errcode, wires, busy, partialRequest, held⟩ := h
  exact ⟨cursor, transport, raster, display, errcode, wires, busy, partialRequest, fun low =>
    congrArg (fun u : State => { u with host := host, lastRead := lastRead, draws := draws }) (held low)⟩

/-- Reset values meet the invariant, if the trace says so much of the pins (R24, R46). -/
theorem toResetValues_inv {s : State} (h : pinsAfter State.reset.pins s.trace = State.reset.pins) :
    (toResetValues s).Inv where
  cursor := fun valid => (Bool.false_ne_true valid).elim
  transport := ⟨rfl, rfl, rfl⟩
  raster := rfl
  display := rfl
  errcode := fun _ => rfl
  wires := h
  busy := fun busy => (Bool.false_ne_true busy).elim
  partialRequest := fun _ => lacksByte_nil
  held := fun _ => rfl

/-- A step of a held block answers a state with reset values, and the trace stays (R24, R155). -/
theorem stepHeld_next {s t : State} (h : stepHeld s = .next t) : ∃ u, u.trace = s.trace ∧ t = toResetValues u := by
  unfold stepHeld at h
  simp only at h
  split at h
  next a rest _ =>
    cases h
    exact ⟨{ s with host := rest, lastRead := _, draws := _ }, rfl, rfl⟩
  next level rest _ =>
    cases h
    exact ⟨{ s with host := rest, resetN := level }, rfl, rfl⟩
  all_goals
    cases h
    exact ⟨s, rfl, rfl⟩

theorem stepHeld_inv {s t : State} (hs : s.Inv) (hn : s.resetN = false) (h : stepHeld s = .next t) : t.Inv := by
  obtain ⟨u, trace, rfl⟩ := stepHeld_next h
  have pins : s.pins = State.reset.pins := by rw [hs.held hn]; rfl
  refine toResetValues_inv ?_
  rw [trace, hs.wires, pins]

theorem driveResetFromHigh_inv {s : State} (hs : s.Inv) (level : Bool) : (driveResetFromHigh level s).Inv := by
  unfold driveResetFromHigh
  split
  · exact hs
  · exact toResetValues_inv
      (s := { s with resetN := false, trace := [], earlier := s.earlier ++ [eventsAtReset s], draws := _ }) rfl

/-- Settles O5, by the cases of a step: the block step and the handshake keep it by `runPending_inv` and
`acceptByte_inv`, every other step changes only the host's side or leaves reset values. -/
theorem stepKeepsInvariant : Obligations.StepKeepsInvariant := by
  intro s t hs h
  cases hn : s.resetN
  · exact stepHeld_inv hs hn (step_of_low hn ▸ h)
  · obtain ⟨a, rest, -, e⟩ | ⟨level, rest, -, e⟩ | ⟨hb, b, rest, -, e⟩ | ⟨-, rest, -, e⟩ | ⟨-, -, e⟩ | ⟨-, e⟩ :=
      step_cases hn <;> rw [e] at h
    · cases h
      exact inv_host hs rest _ _
    · cases h
      exact driveResetFromHigh_inv (inv_host hs rest s.lastRead s.draws) level
    · exact acceptByte_inv (inv_host hs rest s.lastRead s.draws) hn hb h
    · cases h
      exact inv_host hs rest s.lastRead s.draws
    · cases h
      exact hs
    · exact runPending_inv h (registersSound_of_inv hs) (pinsSound_of_inv hs) hn

end Sys2Proof.Proofs
end

section
/-! SUPPORT. A receiver that follows the block over the events of a request: what keeps it listening, and its cursor
beside the shadow cursor. -/

namespace Sys2Proof.Proofs
open Sys2Proof.Machine Sys2Proof.Laws

/-! No part of a byte is left over. -/

/-- With `RST` low no bit comes in (R157). -/
theorem run_bits_of_rst_low {r : Receiver} (es : List Event) (hs : ∀ v, Event.set .rst v ∉ es)
    (hr : r.pins.rst = false) (hb : r.bits = []) : (r.run es).bits = [] := by
  induction es generalizing r with
  | nil => exact hb
  | cons e es ih =>
    have hes : ∀ v, Event.set .rst v ∉ es := fun v hv => hs v (.tail _ hv)
    have rstLow : (r.event e).pins.rst = false := by
      rw [event_pins]
      cases e with
      | hold d => exact hr
      | set pin v =>
        cases pin with
        | rst => exact absurd (.head _) (hs v)
        | _ => exact hr
    have noBits : (r.event e).bits = [] := by
      cases e with
      | hold d => exact hb
      | set pin v =>
        rw [event_pins, pinsAfterEvent] at rstLow
        rw [Receiver.event, if_pos rstLow]
        rfl
    exact ih hes rstLow noBits

theorem framedEvents_keep_rst (f : Framed) (v : Bool) : Event.set .rst v ∉ framedEvents f := by
  cases f <;> simp [framedEvents, byteEvents_eq, bitEvents]

/-- A framed byte is taken in whole or, with `RST` low, not at all (R66, R157). -/
theorem run_framed_bits (r : Receiver) (f : Framed) (hb : r.bits = []) : (r.run (framedEvents f)).bits = [] := by
  cases hr : r.pins.rst with
  | false => exact run_bits_of_rst_low _ (framedEvents_keep_rst f) hr hb
  | true =>
    cases f with
    | command b => rw [run_command r b hr hb, command_bits]; rfl
    | data b => rw [run_data r b hr hb, data_bits]; rfl

theorem run_frames_bits (r : Receiver) (fs : List Framed) (hb : r.bits = []) : (r.run (framesEvents fs)).bits = [] := by
  induction fs generalizing r with
  | nil => exact hb
  | cons f fs ih =>
    rw [framesEvents_cons, run_append]
    exact ih _ (run_framed_bits r f hb)

theorem run_frames_rst (r : Receiver) (fs : List Framed) : (r.run (framesEvents fs)).pins.rst = r.pins.rst := by
  rw [run_pins, pinsAfter_frames_rst]

/-- The reset pulse drops what has come in of a byte (R157). -/
theorem run_resetPulse_bits (r : Receiver) (d : Nat) : (r.run (resetPulse d)).bits = [] := rfl

/-- After a request the receiver holds no part of a byte. -/
theorem run_requestEvents_bits (r : Receiver) (i : Instr) (s : State) (hb : r.bits = []) :
    (r.run (requestEvents s i)).bits = [] := by
  rw [requestEvents, run_append]
  apply run_frames_bits
  split
  · exact run_resetPulse_bits r rstHold
  · exact hb

/-! The shadow stays on the surface. -/

/-- A valid shadow cursor is on the surface (R35, R36). -/
def OnSurface (s : State) : Prop := s.status.curValid = true → s.curRow.toNat < rows ∧ s.curCol.toNat < width

theorem advanceCursor_onSurface {s : State} (h : OnSurface s) : OnSurface (advanceCursor s) := by
  intro hv
  rw [advanceCursor_status] at hv
  exact advanceCursor_on_surface (h hv).1 (h hv).2 hv

theorem write_onSurface {i : Instr} {s t : State} (w : RegisterWrite i s t) (h : OnSurface s) : OnSurface t := by
  cases w with
  | error e op => cases e <;> exact h
  | invalidate => exact fun valid => (Bool.false_ne_true valid).elim
  | advance => exact advanceCursor_onSurface h
  | place hr hc => exact fun _ => ⟨hr, hc⟩
  | _ => exact h

theorem requestRegisters_onSurface (i : Instr) {s : State} (h : OnSurface s) : OnSurface (requestRegisters s i) :=
  requestRegisters_keeps (fun _ _ write => write_onSurface write) h

/-! The receiver's cursor beside the shadow cursor. -/

/-- The receiver's cursor is the shadow cursor whenever that is valid (R31). -/
def CursorFollows (r : Receiver) (s : State) : Prop :=
  s.status.curValid = true → r.y = some s.curRow.toNat ∧ r.x = some s.curCol.toNat

/-- A data byte moves both cursors alike (R64, R95). -/
theorem data_cursorFollows {r : Receiver} {s : State} (b : Byte) (hs : OnSurface s) (h : CursorFollows r s) :
    CursorFollows (r.data b) (advanceCursor s) := by
  intro hv
  rw [advanceCursor_status] at hv
  obtain ⟨hrow, hcol⟩ := hs hv
  obtain ⟨hy, hx⟩ := h hv
  obtain ⟨y', x', ylt, xlt, next, hdata⟩ := data_position r b hy hx hrow hcol
  obtain ⟨row', col'⟩ := advanceCursor_position s hv hrow hcol
  simp only [rows, width] at hrow hcol row' col'
  rw [hdata, row', col']
  exact ⟨congrArg some (by omega), congrArg some (by omega)⟩

theorem datas_cursorFollows {r : Receiver} {s : State} (bs : List Byte) (hc : r.pins.rst = true) (hb : r.bits = [])
    (hs : OnSurface s) (h : CursorFollows r s) :
    CursorFollows (r.run (framesEvents (bs.map .data))) (advanceTimes bs.length s) := by
  rw [run_datas bs r hc hb]
  clear hc hb
  induction bs generalizing r s with
  | nil => exact h
  | cons b bs ih =>
    exact ih (r := (framedPins (!dcCmdLevel) b r).data b) (advanceCursor_onSurface hs)
      (data_cursorFollows (r := framedPins (!dcCmdLevel) b r) b hs h)

/-- The shadow cursor is where the cursor pair puts it (R106). -/
theorem placeCursor_position {row x : Byte} (hr : row.toNat < rows) (hx : x.toNat < width) (s : State) :
    (placeCursor row x s).curRow.toNat = row.toNat ∧ (placeCursor row x s).curCol.toNat = x.toNat := by
  simp only [rows, width] at hr hx
  simp only [placeCursor, BitVec.toNat_setWidth]
  omega

theorem placeCursor_onSurface {row x : Byte} (hr : row.toNat < rows) (hx : x.toNat < width) (s : State) :
    OnSurface (placeCursor row x s) := by
  obtain ⟨hrow, hcol⟩ := placeCursor_position hr hx s
  intro _
  rw [hrow, hcol]
  exact ⟨hr, hx⟩

/-- The cursor pair sets both cursors alike, wherever they were (R65, R106). -/
theorem cursorFrames_cursorFollows {r : Receiver} {row x : Byte} (s : State) (hr : row.toNat < rows)
    (hx : x.toNat < width) (hc : r.pins.rst = true) (hb : r.bits = []) (hw : r.raw = false) :
    CursorFollows (r.run (framesEvents (cursorFrames row x))) (placeCursor row x s) := by
  obtain ⟨hrow, hcol⟩ := placeCursor_position hr hx s
  intro _
  rw [run_cursorFrames r hr hx hc hb hw, hrow, hcol]
  exact ⟨rfl, rfl⟩

/-- The cursor pair and data bytes after it: both cursors are as many positions further (R106, R95). -/
theorem placed_cursorFollows {r : Receiver} {row x : Byte} (s : State) (bs : List Byte) (hr : row.toNat < rows)
    (hx : x.toNat < width) (hc : r.pins.rst = true) (hb : r.bits = []) (hw : r.raw = false) :
    CursorFollows (r.run (framesEvents (cursorFrames row x ++ bs.map .data)))
      (advanceTimes bs.length (placeCursor row x s)) := by
  rw [framesEvents_append, run_append]
  exact datas_cursorFollows bs ((run_frames_rst r _).trans hc) (run_frames_bits r _ hb)
    (placeCursor_onSurface hr hx s) (cursorFrames_cursorFollows s hr hx hc hb hw)

theorem clear_cursorFollows {r : Receiver} (s : State) (hc : r.pins.rst = true) (hb : r.bits = [])
    (hw : r.raw = false) : CursorFollows (r.run (framesEvents clearFrames)) (placeCursor 0 0 s) := by
  have h := placed_cursorFollows (row := 0) (x := 0) s (List.replicate surfaceBytes clearByte) (by decide) (by decide)
    hc hb hw
  rw [List.length_replicate] at h
  have around : advanceTimes surfaceBytes (placeCursor 0 0 s) = placeCursor 0 0 s :=
    advance_placed 0 0 surfaceBytes s (by decide) (by decide)
  rw [around] at h
  exact h

/-- A drawn glyph leaves both cursors at the same place (R120). -/
theorem glyph_cursorFollows {r : Receiver} {row : Byte} {px : Nat} (ch : Byte) (s : State) (hr : row.toNat < rows)
    (hx : px < width) (hc : r.pins.rst = true) (hb : r.bits = []) (hw : r.raw = false) :
    CursorFollows (r.run (framesEvents (glyphFrames row px ch))) (endAt row px s) := by
  have hpx : (BitVec.ofNat 8 px).toNat < width := by
    simp only [width, BitVec.toNat_ofNat] at *; omega
  have h := placed_cursorFollows s (glyphData px ch) hr hpx hc hb hw
  rw [glyphData_length, advance_placed row px _ s hr hx] at h
  exact h

theorem lineCells_px_lt {px : Nat} {text : List Byte} {p : Nat × Byte} (h : p ∈ lineCells px text) : p.1 < width := by
  induction text generalizing px with
  | nil => cases h
  | cons ch rest ih =>
    rw [lineCells] at h
    split at h
    · next drawn =>
      cases h with
      | head => exact drawn.2
      | tail _ h => exact ih h
    · cases h

/-- The glyphs of a line, in order: the last one places both cursors (R128). -/
theorem cells_cursorFollows {r : Receiver} {row : Byte} (cells : List (Nat × Byte)) {s : State}
    (hr : row.toNat < rows) (hx : ∀ p ∈ cells, p.1 < width) (hc : r.pins.rst = true) (hb : r.bits = [])
    (hw : r.raw = false) (h : CursorFollows r s) :
    CursorFollows (r.run (framesEvents (cellsFrames row cells)))
      (cells.getLast?.elim s fun p => endAt row p.1 s) := by
  induction cells generalizing r s with
  | nil => exact h
  | cons c cells ih =>
    have glyph := glyph_cursorFollows c.2 s hr (hx c (.head _)) hc hb hw
    have rest := ih (fun p hp => hx p (.tail _ hp)) ((run_frames_rst r _).trans hc) (run_frames_bits r _ hb)
      ((run_raw r _).trans hw) glyph
    simp only [endAt_endAt] at rest
    rw [← run_append, ← framesEvents_append] at rest
    rw [List.getLast?_cons]
    cases hl : cells.getLast? with
    | none => rw [hl] at rest; exact rest
    | some p => rw [hl] at rest; exact rest

/-- A request that executes on an initialised display leaves both cursors alike. -/
theorem request_cursorFollows (i : Instr) {r : Receiver} {s : State} (hs : OnSurface s) (hc : r.pins.rst = true)
    (hb : r.bits = []) (hw : r.raw = sendsRawCommands i) (h : CursorFollows r s) :
    CursorFollows (r.run (requestEvents s i)) (requestRegisters s i) := by
  cases i with
  | init => exact fun valid => (Bool.false_ne_true valid).elim
  | cmd imm8 => exact fun valid => (Bool.false_ne_true valid).elim
  | nop => exact h
  | wrctrl imm8 => exact h
  | reserved op => exact h
  | data imm8 =>
    exact datas_cursorFollows (s := afterProtocolCheck 0x03 s) [imm8] hc hb hs h
  | cursor row x =>
    rw [requestEvents_of_ne_init s (by simp), requestFrames, requestRegisters]
    split
    · next on => exact cursorFrames_cursorFollows _ on.1 on.2 hc hb hw
    · exact h
  | clear =>
    rw [requestEvents_of_ne_init s (by simp), requestFrames, requestRegisters]
    exact clear_cursorFollows _ hc hb hw
  | char row col ch =>
    rw [requestEvents_of_ne_init s (by simp), requestFrames, requestRegisters]
    split
    · next on => exact glyph_cursorFollows ch (afterProtocolCheck 0x06 s) on.1 on.2 hc hb hw
    · exact h
  | line row col len text =>
    rw [requestEvents_of_ne_init s (by simp), requestFrames, requestRegisters, afterLineRegisters]
    split
    · next on =>
      exact cells_cursorFollows (s := afterProtocolCheck 0x07 s) _ on (fun _ hp => lineCells_px_lt hp) hc hb hw h
    · exact h

/-- Settles O43: pins and bits follow the events of every request; the cursors are compared request by request, by the
cursor pair and the data bytes each one sends. -/
theorem shadowTracksReceiver : Obligations.ShadowTracksReceiver := by
  intro i r s t es ⟨pins, sclk, bits, tracked⟩ surface he htrace
  obtain rfl := exec_eq_next he
  have events : requestEvents s i = es := by
    rw [afterEvents_trace, requestRegisters_trace] at htrace
    exact List.append_cancel_left htrace
  subst events
  refine ⟨⟨?_, ?_, run_requestEvents_bits _ i s bits, fun done => ?_⟩, requestRegisters_onSurface i surface⟩
  · rw [Receiver.request, run_pins, pins, afterEvents_pins, requestRegisters_pins]
  · rw [afterEvents_pins, requestRegisters_pins]
    exact pinsAfter_requestEvents_sclk i s sclk
  · rw [afterEvents_status, requestRegisters_initDone] at done
    rw [afterEvents_pins, requestRegisters_pins, pinsAfter_requestEvents_rst]
    by_cases hi : i = .init
    · subst hi
      exact ⟨rfl, fun valid => (Bool.false_ne_true valid).elim⟩
    · rw [if_neg hi] at done ⊢
      obtain ⟨rst, cursor⟩ := tracked done
      exact ⟨rst, request_cursorFollows i (r := { r with raw := sendsRawCommands i }) surface
        ((congrArg Pins.rst pins).trans rst) bits rfl cursor⟩

end Sys2Proof.Proofs
end

section
/-! SUPPORT. Encoder, decoder and request length fit together (R69 to R71). -/

namespace Sys2Proof.Proofs
open Sys2Proof.Machine Sys2Proof.Laws

theorem decodeOperands_line_sound {bs rest : List Byte} {i : Instr} (h : decodeOperands 0x07 bs = some (i, rest)) :
    i.wf = true ∧ encode i ++ rest = 0x07 :: bs := by
  obtain _ | ⟨row, _ | ⟨col, _ | ⟨len, bs⟩⟩⟩ := bs
  case cons.cons.cons =>
    rw [decodeOperands_line] at h
    split at h
    · next fits =>
      cases h
      exact ⟨(lineTextFits_iff len _).mpr (List.length_take_of_le fits), by simp [encode]⟩
    · cases h
  all_goals cases h

theorem decodeOperands_sound {op : Byte} {bs rest : List Byte} {i : Instr}
    (h : decodeOperands op bs = some (i, rest)) : i.wf = true ∧ encode i ++ rest = op :: bs := by
  obtain h9 | rfl | rfl | rfl | rfl | rfl | rfl | rfl | rfl | rfl := opcode_cases op
  · rw [decodeOperands_reserved h9] at h
    cases h
    exact ⟨(isReservedOpcode_iff op).mpr h9, rfl⟩
  on_goal 8 => exact decodeOperands_line_sound h
  -- The other opcodes take at most three operand bytes.
  all_goals obtain _ | ⟨_, _ | ⟨_, _ | ⟨_, _⟩⟩⟩ := bs <;> cases h <;> exact ⟨rfl, rfl⟩

/-- What the decoder reads is a well-formed request, and its bytes are those taken. -/
theorem decode_sound {bs rest : List Byte} {i : Instr} (h : decode bs = .ok (i, rest)) :
    i.wf = true ∧ encode i ++ rest = bs := by
  cases bs with
  | nil => cases h
  | cons op bs =>
    rw [decode_cons] at h
    split at h
    · next e =>
      cases h
      exact decodeOperands_sound e
    · cases h

/-- The bytes of a request decode to it, whatever comes after them. -/
theorem decode_encode {i : Instr} (h : i.wf = true) (rest : List Byte) : decode (encode i ++ rest) = .ok (i, rest) := by
  cases i with
  | line row col len text =>
    obtain ht : text.length = len.toNat := (lineTextFits_iff len text).mp h
    have hd : decodeOperands 0x07 (row :: col :: len :: (text ++ rest)) = some (.line row col len text, rest) := by
      rw [decodeOperands_line, ← ht, if_pos (by simp), List.take_left, List.drop_left]
    change decode (0x07 :: row :: col :: len :: (text ++ rest)) = _
    rw [decode_cons, hd]
  | reserved op =>
    change decode (op :: rest) = _
    rw [decode_cons, decodeOperands_reserved ((isReservedOpcode_iff op).mp h)]
  | _ => rfl

/-- The bytes of a request begin with its opcode and are as many as R71 says. -/
theorem encode_length (i : Instr) : RequestLength.Statement i := by
  cases i with
  | nop => exact RequestLength.nop
  | init => exact RequestLength.init
  | cmd imm8 => exact RequestLength.cmd imm8
  | data imm8 => exact RequestLength.data imm8
  | cursor row x => exact RequestLength.cursor row x
  | clear => exact RequestLength.clear
  | char row col ch => exact RequestLength.char row col ch
  | line row col len text => exact RequestLength.line row col len text
  | wrctrl imm8 => exact RequestLength.wrctrl imm8
  | reserved op => exact RequestLength.reserved op

theorem requestComplete_iff (rq : List Byte) : requestComplete rq = true ↔ requestLength rq = some rq.length := by
  simp [requestComplete]

theorem requestComplete_encode {i : Instr} (h : i.wf = true) : requestComplete (encode i) = true :=
  (requestComplete_iff _).mpr (encode_length i h).2

/-- Bytes that decode to a request with nothing after it are its encoding. -/
theorem encode_of_decode {rq : List Byte} {i : Instr} (h : decode rq = .ok (i, [])) : i.wf = true ∧ encode i = rq := by
  obtain ⟨wf, bytes⟩ := decode_sound h
  exact ⟨wf, (List.append_nil _).symm.trans bytes⟩

/-- Once the bytes fix the length of the request, more bytes do not change it (R71). -/
theorem requestLength_append {xs : List Byte} {n : Nat} (h : requestLength xs = some n) (ys : List Byte) :
    requestLength (xs ++ ys) = some n := by
  cases xs with
  | nil => cases h
  | cons op rest =>
    rw [List.cons_append]
    by_cases h7 : op.toNat = 7
    · rw [requestLength_line h7] at h ⊢
      obtain ⟨len, hlen, rfl⟩ := Option.map_eq_some_iff.mp h
      rw [List.getElem?_append_left (List.getElem?_eq_some_iff.mp hlen).1, hlen, Option.map_some]
    · obtain ⟨k, -, fixed⟩ := requestLength_fixed h7
      rw [fixed] at h ⊢
      exact h

/-- The first bytes of a request, but not all of them, are no complete request (R71). -/
theorem requestComplete_of_missing {i : Instr} {xs ys : List Byte} (hi : i.wf = true) (h : xs ++ ys = encode i)
    (hy : ys ≠ []) : requestComplete xs = false := by
  refine Bool.eq_false_iff.mpr fun complete => ?_
  have all := requestLength_append ((requestComplete_iff xs).mp complete) ys
  rw [h, (encode_length i hi).2, ← h, List.length_append] at all
  have hlen := List.length_pos_iff.mpr hy
  have := Option.some.inj all
  omega

/-- The requests of R29 are NOP, WRCTRL and the reserved opcodes. -/
theorem instantPending_encode {i : Instr} (h : i.wf = true) :
    instantPending (encode i) = true ↔ i = .nop ∨ (∃ v, i = .wrctrl v) ∨ isReserved i = true := by
  cases i with
  | reserved op =>
    have h9 : 9 ≤ op.toNat := (isReservedOpcode_iff op).mp h
    simp [encode, instantPending, instantOpcode, isReserved, h9]
  | _ => simp [encode, instantPending, instantOpcode, isReserved]

/-- 0x08 is the opcode of WRCTRL and of no other request (R70). -/
theorem head_encode_eq_wrctrl {i : Instr} (h : i.wf = true) :
    (encode i).head? = some 0x08 ↔ ∃ v, i = .wrctrl v := by
  cases i with
  | reserved op =>
    have h9 : 9 ≤ op.toNat := (isReservedOpcode_iff op).mp h
    simp only [encode, List.head?_cons, Option.some.injEq, reduceCtorEq, exists_false, iff_false]
    rintro rfl
    exact absurd h9 (by decide)
  | _ => simp [encode]

end Sys2Proof.Proofs
end

section
/-! SUPPORT. Handshakes and block steps (R22, R29). -/

namespace Sys2Proof.Proofs
open Sys2Proof.Machine Sys2Proof.Laws

theorem reqReady_iff (s : State) : s.reqReady = true ↔ s.resetN = true ∧ s.status.busy = false := by
  simp [State.reqReady]

/-- Settles O11: nothing acts before the pending request, and its block step is `exec` and the completion. -/
theorem stepRunsPendingRequest : Obligations.StepRunsPendingRequest := by
  intro s i run hd
  rw [step_pending run, runPending_eq hd]
  rfl

/-- A handshake after which the request still lacks a byte (R22, R71). -/
theorem acceptByte_missing {b : Byte} {s : State} (h : requestComplete (s.rqbuf ++ [b]) = false) :
    acceptByte b s = .next { s with rqbuf := s.rqbuf ++ [b] } := by
  rw [acceptByte]
  exact if_neg (Bool.eq_false_iff.mp h)

/-- The last handshake of a request of R29: it is executed within the step. -/
theorem acceptByte_instant {b : Byte} {s : State} {i : Instr} (hd : decode (s.rqbuf ++ [b]) = .ok (i, []))
    (hi : instantPending (s.rqbuf ++ [b]) = true) :
    acceptByte b s = andThen (exec i (withLastByte b s)) fun t => .next (complete t) := by
  obtain ⟨wf, bytes⟩ := encode_of_decode hd
  rw [acceptByte]
  refine (if_pos (bytes ▸ requestComplete_encode wf)).trans ((if_pos hi).trans ?_)
  exact runPending_eq (s := withLastByte b s) hd

/-- The last handshake of any other request: it is pending (R22). -/
theorem acceptByte_pending {b : Byte} {s : State} {i : Instr} (hd : decode (s.rqbuf ++ [b]) = .ok (i, []))
    (hi : instantPending (s.rqbuf ++ [b]) = false) : acceptByte b s = .next (withLastByte b s) := by
  obtain ⟨wf, bytes⟩ := encode_of_decode hd
  rw [acceptByte]
  exact (if_pos (bytes ▸ requestComplete_encode wf)).trans (if_neg (Bool.eq_false_iff.mp hi))

/-- Settles O12, by the three cases of a handshake. -/
theorem stepAcceptsByte : Obligations.StepAcceptsByte := by
  intro s b rest ready hh
  obtain ⟨hr, hb⟩ := (reqReady_iff s).mp ready
  rw [step_send hr hb hh]
  refine ⟨fun lacks => acceptByte_missing ?_, fun i hd => ?_⟩
  · refine Bool.eq_false_iff.mpr fun complete => lacks ?_
    rw [(requestComplete_iff _).mp complete, List.length_append, List.length_singleton]
  · obtain ⟨wf, bytes⟩ := encode_of_decode hd
    have kind := instantPending_encode wf
    rw [bytes] at kind
    exact ⟨fun instant => acceptByte_instant hd (kind.mpr instant),
      fun pending => acceptByte_pending hd (Bool.eq_false_iff.mpr (mt kind.mp pending))⟩

theorem exec_host {i : Instr} {s t : State} (h : exec i s = .next t) : t.host = s.host := by
  obtain rfl := exec_eq_next h
  rw [afterEvents_host, requestRegisters_frame]
  rfl

/-- Settles O13: a held block keeps the byte, and a block step does not write the host's side. -/
theorem noByteAcceptedWhileBusy : Obligations.NoByteAcceptedWhileBusy := by
  intro s t b rest busy hh h
  cases hr : s.resetN with
  | false =>
    rw [step_of_low hr, stepHeld, hh] at h
    cases h
    rfl
  | true =>
    rw [step_pending (by simp [State.aboutToRun, hr, busy, hh])] at h
    obtain ⟨i, u, -, he, rfl⟩ := runPending_cases h
    exact (exec_host he : u.host = s.host)

/-! A request byte by byte. -/

theorem core_run_one (s : State) : Host.Core.run core 1 s = step s := by
  have one : ∀ (M : Host.Core) (s : M.State), M.run 1 s = M.step s := by
    intro M s
    rw [Host.Core.run]
    cases M.step s <;> rfl
  exact one core s

/-- The state with some bytes of a request accepted and the host's list `host`. -/
def withBytes (rq : List Byte) (host : List HostAction) (s : State) : State := { s with rqbuf := rq, host := host }

/-- From the first bytes of a request on, the handshakes of the others but the last one lead to its last byte
(R22, R71). -/
theorem run_to_last_byte {i : Instr} {s : State} (hi : i.wf = true) (hr : s.resetN = true)
    (hb : s.status.busy = false) (b : Byte) (host : List HostAction) (xs ys : List Byte)
    (h : xs ++ (ys ++ [b]) = encode i) :
    Host.Core.run core (ys ++ [b]).length (withBytes xs ((ys ++ [b]).map .send ++ host) s) =
      step (withBytes (xs ++ ys) (.send b :: host) s) := by
  induction ys generalizing xs with
  | nil => rw [List.append_nil]; exact core_run_one _
  | cons y ys ih =>
    have bytes : (xs ++ [y]) ++ (ys ++ [b]) = encode i := by simpa using h
    have handshake : step (withBytes xs (.send y :: ((ys ++ [b]).map .send ++ host)) s) =
        .next (withBytes (xs ++ [y]) ((ys ++ [b]).map .send ++ host) s) :=
      (step_send (s := withBytes xs _ s) hr hb rfl).trans
        (acceptByte_missing (s := withBytes xs _ s) (requestComplete_of_missing hi bytes (by simp)))
    have rest := ih (xs ++ [y]) bytes
    rw [List.append_assoc] at rest
    exact (core_run_next _ handshake).trans rest

/-- Settles O15: all handshakes but the last leave the request incomplete, the last one is `StepAcceptsByte`'s. -/
theorem requestSentByteByByte : Obligations.RequestSentByteByByte := by
  intro i s rest hi hr hb hq hh
  obtain ⟨ys, b, bytes⟩ := (List.eq_nil_or_concat' (encode i)).resolve_left (by cases i <;> simp [encode])
  have start : s = withBytes [] ((ys ++ [b]).map .send ++ rest) s := by
    rw [← bytes, ← hh, ← hq]
    rfl
  have last : Host.Core.run core (encode i).length s = step (withBytes ys (.send b :: rest) s) := by
    rw [bytes, start]
    exact run_to_last_byte hi hr hb b rest [] ys bytes.symm
  obtain ⟨-, complete⟩ := stepAcceptsByte (withBytes ys (.send b :: rest) s) b rest
    ((reqReady_iff _).mpr ⟨hr, hb⟩) rfl
  have hd : decode (ys ++ [b]) = .ok (i, []) := by
    rw [← bytes, ← List.append_nil (encode i)]
    exact decode_encode hi []
  obtain ⟨instant, pending⟩ := complete i hd
  have kind : (i = .nop ∨ isReserved i = true ∨ (encode i).head? = some 0x08) ↔
      i = .nop ∨ (∃ v, i = .wrctrl v) ∨ isReserved i = true := by
    rw [head_encode_eq_wrctrl hi, or_comm (a := isReserved i = true)]
  rw [last]
  intro p
  have hp : p = withLastByte b (withBytes ys rest s) := by
    simp only [p, withLastByte, withBytes, bytes]
  rw [hp]
  split
  · next h => exact instant (kind.mp h)
  · next h => exact pending (mt kind.mpr h)

end Sys2Proof.Proofs
end

section
/-! SUPPORT. What requests and steps keep: the error record (R32, R37) and the writers of each state element (R45). -/

namespace Sys2Proof.Proofs
open Sys2Proof.Machine Sys2Proof.Laws

/-! The error record. -/

/-- From `s` to `t` no error bit is cleared and a recorded `ERRCODE` is kept (R32, R37). -/
def ErrorsKept (s t : State) : Prop :=
  (s.status.errPreinit = true → t.status.errPreinit = true) ∧
  (s.status.errReinit = true → t.status.errReinit = true) ∧
  (s.status.errBadop = true → t.status.errBadop = true) ∧
  (s.status.anyError = true → t.errcode = s.errcode)

theorem errorsKept_refl (s : State) : ErrorsKept s s := ⟨id, id, id, fun _ => rfl⟩

/-- Some error bit stays set. -/
theorem anyError_of_errorsKept {s t : State} (h : ErrorsKept s t) (he : s.status.anyError = true) :
    t.status.anyError = true := by
  obtain ⟨preinit, reinit, badop, -⟩ := h
  simp only [Status.anyError, Bool.or_eq_true] at he ⊢
  exact he.imp (Or.imp preinit reinit) badop

theorem errorsKept_trans {s t u : State} (h : ErrorsKept s t) (g : ErrorsKept t u) : ErrorsKept s u := by
  have still := anyError_of_errorsKept h
  obtain ⟨preinit, reinit, badop, errcode⟩ := h
  obtain ⟨preinit', reinit', badop', errcode'⟩ := g
  exact ⟨preinit' ∘ preinit, reinit' ∘ reinit, badop' ∘ badop, fun he =>
    (errcode' (still he)).trans (errcode he)⟩

theorem raiseErr_errorsKept (e : ErrorCode) (op : Byte) (s : State) : ErrorsKept s (raiseErr e op s) := by
  have errcode : s.status.anyError = true → (raiseErr e op s).errcode = s.errcode := fun he => if_pos he
  cases e with
  | preinit => exact ⟨fun _ => rfl, id, id, errcode⟩
  | reinit => exact ⟨id, fun _ => rfl, id, errcode⟩
  | badop => exact ⟨id, id, fun _ => rfl, errcode⟩

theorem write_errorsKept {i : Instr} {s t : State} (w : RegisterWrite i s t) : ErrorsKept s t := by
  cases w with
  | error e op => exact raiseErr_errorsKept e op s
  | advance => rw [advanceCursor_eq]; exact errorsKept_refl s
  | _ => exact errorsKept_refl s

theorem exec_errorsKept {i : Instr} {s t : State} (h : exec i s = .next t) : ErrorsKept s t := by
  obtain rfl := exec_eq_next h
  exact requestRegisters_keeps (P := ErrorsKept s)
    (fun _ _ write kept => errorsKept_trans kept (write_errorsKept write)) (errorsKept_refl s)

theorem runPending_errorsKept {s t : State} (h : runPending s = .next t) : ErrorsKept s t := by
  obtain ⟨i, u, -, he, rfl⟩ := runPending_cases h
  exact (exec_errorsKept he : ErrorsKept s u)

theorem acceptByte_errorsKept {b : Byte} {s t : State} (h : acceptByte b s = .next t) : ErrorsKept s t := by
  obtain ⟨-, rfl⟩ | ⟨-, -, rfl⟩ | run := acceptByte_cases h
  · exact errorsKept_refl s
  · exact errorsKept_refl s
  · exact (runPending_errorsKept run : ErrorsKept (withLastByte b s) t)

/-- Settles O36, by the cases of a step: only a handshake and a block step touch the error record, by the requests they
run. -/
theorem errorsSticky : Obligations.ErrorsSticky := by
  intro s t hr notReset h
  change ErrorsKept s t
  obtain ⟨a, rest, -, e⟩ | ⟨level, rest, hh, e⟩ | ⟨-, b, rest, -, e⟩ | ⟨-, rest, -, e⟩ | ⟨-, -, e⟩ | ⟨-, e⟩ :=
    step_cases hr <;> rw [e] at h
  · cases h
    exact errorsKept_refl s
  · cases level with
    | true =>
      cases h
      exact errorsKept_refl s
    | false => exact absurd hh (notReset rest)
  · exact acceptByte_errorsKept (s := { s with host := rest }) h
  · cases h
    exact errorsKept_refl s
  · cases h
    exact errorsKept_refl s
  · exact runPending_errorsKept h

/-! The writers. -/

/-- `CIDX` is WRCTRL's (R34, R125). -/
theorem requestRegisters_cidx {i : Instr} (s : State) (hi : ∀ v, i ≠ .wrctrl v) :
    (requestRegisters s i).cidx = s.cidx := by
  refine requestRegisters_keeps (P := fun u => u.cidx = s.cidx) ?_ rfl
  intro t u write ht
  cases write with
  | advance => rw [advanceCursor_eq]; exact ht
  | cidx imm8 => exact absurd rfl (hi imm8)
  | _ => exact ht

/-- NOP, WRCTRL and a reserved opcode send nothing and leave the shadow cursor alone (R45). -/
theorem requestRegisters_of_not_movesCursor {i : Instr} (s : State) (hi : movesCursor i = false) :
    requestEvents s i = [] ∧ (requestRegisters s i).status.curValid = s.status.curValid ∧
      (requestRegisters s i).curRow = s.curRow ∧ (requestRegisters s i).curCol = s.curCol := by
  cases i with
  | nop => exact ⟨rfl, rfl, rfl, rfl⟩
  | wrctrl imm8 => exact ⟨rfl, rfl, rfl, rfl⟩
  | reserved op => exact ⟨rfl, rfl, rfl, rfl⟩
  | _ => cases hi

/-- Settles O37: each clause is the frame of the request's registers, or the levels its events leave. -/
theorem writersOfState : Obligations.WritersOfState := by
  intro i s t h
  obtain rfl := exec_eq_next h
  rw [afterEvents_status, requestRegisters_initDone, afterEvents_pins, requestRegisters_pins,
    pinsAfter_requestEvents_rst]
  refine ⟨fun hi => ?_, fun hi => ?_, requestRegisters_cidx s, fun hi => ?_, ?_⟩
  · rw [if_neg hi, if_neg hi]
    exact ⟨rfl, rfl⟩
  · rw [if_pos hi, if_pos hi]
    exact ⟨rfl, rfl⟩
  · obtain ⟨events, valid, row, col⟩ := requestRegisters_of_not_movesCursor s hi
    rw [events, afterEvents_trace, requestRegisters_trace, List.append_nil]
    exact ⟨valid, row, col, rfl, rfl⟩
  · rw [requestRegisters_frame]
    exact ⟨rfl, rfl, rfl, rfl, rfl, rfl, rfl⟩

end Sys2Proof.Proofs
end

section
/-! SUPPORT. Block reset (R24, R46, R155). -/

namespace Sys2Proof.Proofs
open Sys2Proof.Machine Sys2Proof.Laws

/-- Settles O1: the fields are the reset state's own, the reads are evaluated. -/
theorem resetValues : Obligations.ResetValues :=
  ⟨rfl, rfl, rfl, rfl, rfl, rfl, rfl, rfl, rfl, rfl, rfl, by decide⟩

/-- Settles O4: the reset state is its own reset values, with an empty trace. -/
theorem resetMeetsInvariant : Obligations.ResetMeetsInvariant := toResetValues_inv (s := State.reset) rfl

/-! A step of a held block, by what the host does next. -/

section
variable {s : State} {rest : List HostAction} (hr : s.resetN = false)
include hr

theorem step_held_send {b : Byte} (hh : s.host = .send b :: rest) : step s = .next (toResetValues s) := by
  rw [step_of_low hr, stepHeld, hh]

theorem step_held_await (hh : s.host = .awaitReady :: rest) : step s = .next (toResetValues s) := by
  rw [step_of_low hr, stepHeld, hh]

theorem step_held_idle (hh : s.host = []) : step s = .next (toResetValues s) := by
  rw [step_of_low hr, stepHeld, hh]

theorem step_held_drive {level : Bool} (hh : s.host = .driveResetN level :: rest) :
    step s = .next { toResetValues s with host := rest, resetN := level } := by
  rw [step_of_low hr, stepHeld, hh]

/-- A read finds the reset values (log 16). -/
theorem step_held_read {a : RegAddr} (hh : s.host = .read a :: rest) :
    step s = .next { toResetValues s with
      host := rest, lastRead := some (a, registerByte a State.reset) } := by
  rw [step_of_low hr, stepHeld, hh]
  rfl

end

/-- An idle block has no request whose events block reset could cut. -/
theorem eventsAtReset_idle {s : State} (h : s.status.busy = false) : eventsAtReset s = s.trace :=
  if_neg (by simp [h])

theorem driveResetFromHigh_low_earlier {s : State} (h : s.status.busy = false) :
    (driveResetFromHigh false s).earlier = s.earlier ++ [s.trace] :=
  congrArg (fun es => s.earlier ++ [es]) (eventsAtReset_idle h)

theorem driveResetFromHigh_low_draws {s : State} (h : s.status.busy = false) :
    (driveResetFromHigh false s).draws = s.draws :=
  if_neg (by simp [h])

/-- Settles O2: driving the input low from high, then every host action on a held block. -/
theorem blockReset : Obligations.BlockReset := by
  refine ⟨fun s rest hr hh => ?_, fun s hr => ⟨fun b rest hh => ?_, fun rest hh => ?_, fun a rest hh => ?_,
    fun rest hh => ?_⟩⟩
  · exact ⟨_, step_drive hr hh, rfl, rfl, fun idle =>
      ⟨driveResetFromHigh_low_earlier (s := { s with host := rest }) idle,
        driveResetFromHigh_low_draws (s := { s with host := rest }) idle⟩⟩
  · exact step_held_send hr hh
  · exact step_held_await hr hh
  · exact step_held_read hr hh
  · exact ⟨_, step_held_drive hr hh, rfl, rfl⟩

/-- Settles O50: redriving a level is a drive like any other, and a held block with nothing to do waits. -/
theorem resetLevelRedriven : Obligations.ResetLevelRedriven := by
  refine ⟨fun s rest hr hh => ?_, fun s hr => ⟨fun rest hh => ?_, step_held_idle hr⟩⟩
  · exact step_drive hr hh
  · exact step_held_drive hr hh

end Sys2Proof.Proofs
end

section
/-! SUPPORT. The display memory over events (R64): its canonical form, what a byte or a run of data bytes writes, and
what the events of a request leave on the display of a listening receiver. -/

namespace Sys2Proof.Proofs
open Sys2Proof.Machine Sys2Proof.Laws

/-! The canonical form. -/

theorem readCell_writeCell (m : DisplayMemory) (a a' : Nat) (b : Byte) :
    readCell (writeCell m a b) a' = if a' = a then some b else readCell m a' := by
  split
  · next h => rw [h, readCell_writeCell_same]
  · next h => exact readCell_writeCell_other m b h

/-- A data byte is one write or, with the cursor unknown, leaves the empty memory (R64, log 20). -/
theorem data_memory_wf {r : Receiver} (b : Byte) (h : Memory.wf r.mem = true) : Memory.wf (r.data b).mem = true := by
  cases hy : r.y with
  | none => rw [data_unknown r b (.inl hy)]; exact memory_nil_wf
  | some y =>
    cases hx : r.x with
    | none => rw [data_unknown r b (.inr hx)]; exact memory_nil_wf
    | some x => rw [data_known r b hy hx]; exact writeCell_wf r.mem _ b h

theorem byte_memory_wf {r : Receiver} (b : Byte) (h : Memory.wf r.mem = true) : Memory.wf (r.byte b).mem = true := by
  unfold Receiver.byte
  split
  · rw [command_mem]; exact h
  · exact data_memory_wf b h

theorem sample_memory_wf {r : Receiver} (bit : Bool) (h : Memory.wf r.mem = true) :
    Memory.wf (r.sample bit).mem = true := by
  unfold Receiver.sample
  split
  · exact byte_memory_wf (r := { r with bits := [] }) _ h
  · exact h

theorem event_memory_wf {r : Receiver} (e : Event) (h : Memory.wf r.mem = true) : Memory.wf (r.event e).mem = true := by
  cases e with
  | hold d => exact h
  | set pin v =>
    simp only [Receiver.event]
    split
    · exact memory_nil_wf
    · split
      · exact sample_memory_wf (r := { r with pins := r.pins.put pin v }) _ h
      · exact h

theorem run_memory_wf {r : Receiver} (es : List Event) (h : Memory.wf r.mem = true) :
    Memory.wf (r.run es).mem = true := by
  induction es generalizing r with
  | nil => exact h
  | cons e es ih => exact ih (event_memory_wf e h)

/-- Settles O47: every event keeps the form, so a run does, by induction on its events. -/
theorem displayMemoryCanonical : Obligations.DisplayMemoryCanonical :=
  ⟨fun _ es h => run_memory_wf es h, readCell_writeCell⟩

/-! The events of a request, seen by a listening receiver. -/

/-- The events a request adds to the trace are its own. -/
theorem events_eq_requestEvents {i : Instr} {s t : State} {es : List Event} (he : exec i s = .next t)
    (ht : t.trace = s.trace ++ es) : es = requestEvents s i := by
  rw [exec_eq_next he, afterEvents_trace, requestRegisters_trace] at ht
  exact (List.append_cancel_left ht).symm

/-- What a request other than INIT leaves of the receiver is what its framed bytes leave (R98). -/
theorem request_eq_run_frames {i : Instr} (r : Receiver) {s t : State} {es : List Event} (hi : i ≠ .init)
    (he : exec i s = .next t) (ht : t.trace = s.trace ++ es) :
    r.request i es = { r with raw := sendsRawCommands i }.run (framesEvents (requestFrames s i)) := by
  rw [events_eq_requestEvents he ht, requestEvents_of_ne_init s hi, Receiver.request]

theorem listening_rst {r : Receiver} {s : State} (h : Listening r s) : r.pins.rst = true := by
  obtain ⟨pins, -, rst, -⟩ := h
  rw [pins, rst]

theorem listening_bits {r : Receiver} {s : State} (h : Listening r s) : r.bits = [] := by
  obtain ⟨-, -, -, bits⟩ := h
  exact bits

@[simp] theorem framedPins_mem (dc : Bool) (b : Byte) (r : Receiver) : (framedPins dc b r).mem = r.mem := rfl

theorem request_cmd {r : Receiver} {s t : State} {es : List Event} {b : Byte} (hl : Listening r s)
    (he : exec (.cmd b) s = .next t) (ht : t.trace = s.trace ++ es) :
    r.request (.cmd b) es = (framedPins dcCmdLevel b { r with raw := true }).command b := by
  rw [request_eq_run_frames r (by simp) he ht, requestFrames, framesEvents_cons, framesEvents_nil, List.append_nil]
  exact run_command { r with raw := true } b (listening_rst hl) (listening_bits hl)

theorem request_data {r : Receiver} {s t : State} {es : List Event} {b : Byte} (hl : Listening r s)
    (he : exec (.data b) s = .next t) (ht : t.trace = s.trace ++ es) :
    r.request (.data b) es = (framedPins (!dcCmdLevel) b { r with raw := false }).data b := by
  rw [request_eq_run_frames r (by simp) he ht, requestFrames, framesEvents_cons, framesEvents_nil, List.append_nil]
  exact run_data { r with raw := false } b (listening_rst hl) (listening_bits hl)

/-- Raw command bytes leave the cursor unknown (R65). -/
theorem run_raw_commands {r : Receiver} (bs : List Byte) (hc : r.pins.rst = true) (hb : r.bits = [])
    (hw : r.raw = true) (hy : r.y = none) (hx : r.x = none) :
    (r.run (framesEvents (bs.map .command))).y = none ∧ (r.run (framesEvents (bs.map .command))).x = none := by
  induction bs generalizing r with
  | nil => exact ⟨hy, hx⟩
  | cons b bs ih =>
    rw [List.map_cons, framesEvents_cons, run_append, run_command r b hc hb,
      command_of_raw (framedPins dcCmdLevel b r) b hw]
    exact ih hc rfl hw rfl rfl

/-- The reset pulse loses the cursor, and raw command bytes do not bring it back (R65, R100, R157). -/
theorem request_init_cursor (r : Receiver) (s : State) :
    (r.request .init (requestEvents s .init)).y = none ∧ (r.request .init (requestEvents s .init)).x = none := by
  rw [Receiver.request, requestEvents, if_pos rfl, run_append]
  exact run_raw_commands Config.initSeq rfl rfl rfl rfl rfl

/-- Settles O48, request by request: a raw command byte loses the cursor, a data byte without one the memory. -/
theorem rawCommandsLoseCursor : Obligations.RawCommandsLoseCursor := by
  intro r s t es hl ht
  refine ⟨fun b he _ => ?_, fun he => ?_, fun b he _ hu a => ?_⟩
  · rw [request_cmd hl he ht, command_of_raw _ b rfl]
    exact ⟨rfl, rfl, rfl⟩
  · rw [events_eq_requestEvents he ht]
    exact request_init_cursor r s
  · rw [request_data hl he ht, data_unknown (framedPins (!dcCmdLevel) b { r with raw := false }) b hu]
    exact readCell_nil a

/-- Settles O49: the one data byte of the request is a write at the cursor, which moves one position on. -/
theorem dataOnDisplay : Obligations.DataOnDisplay := by
  intro r s t es b y x hl hy hx hrow hcol he _ ht
  obtain ⟨y', x', ylt, xlt, next, written⟩ :=
    data_position (framedPins (!dcCmdLevel) b { r with raw := false }) b hy hx hrow hcol
  rw [request_data hl he ht, written]
  exact ⟨y', x', rfl, rfl, ylt, xlt, next, fun a => readCell_writeCell r.mem _ a b⟩

/-! Data bytes in a row. -/

/-- The device cursor is known, at position `p` in row-major order; the position after the last is the first (R64). -/
def CursorAt (r : Receiver) (p : Nat) : Prop :=
  ∃ y x, r.y = some y ∧ r.x = some x ∧ y < 6 ∧ x < 84 ∧ y * 84 + x = p % 504

theorem data_cursorAt {r : Receiver} {p : Nat} (b : Byte) (h : CursorAt r p) :
    CursorAt (r.data b) (p + 1) ∧ (r.data b).mem = writeCell r.mem (p % 504) b := by
  obtain ⟨y, x, hy, hx, ylt, xlt, here⟩ := h
  obtain ⟨y', x', ylt', xlt', next, written⟩ := data_position r b hy hx ylt xlt
  rw [written, ← here]
  exact ⟨⟨y', x', rfl, rfl, ylt', xlt', by omega⟩, rfl⟩

/-- Data bytes that fit on the surface from position `p` on lie there in their order, every other byte as before
(R64). -/
theorem readCell_receiveDatas {r : Receiver} {p : Nat} (bs : List Byte) (h : CursorAt r p)
    (fits : p + bs.length ≤ 504) (a : Nat) :
    readCell (receiveDatas bs r).mem a =
      if p ≤ a ∧ a < p + bs.length then bs[a - p]? else readCell r.mem a := by
  induction bs generalizing r p with
  | nil => exact (if_neg (by simp)).symm
  | cons b bs ih =>
    rw [List.length_cons] at fits ⊢
    obtain ⟨next, written⟩ := data_cursorAt (r := framedPins (!dcCmdLevel) b r) b h
    rw [receiveDatas, ih next (by omega), written, Nat.mod_eq_of_lt (by omega), readCell_writeCell,
      framedPins_mem]
    rcases Nat.lt_trichotomy a p with before | rfl | later
    · rw [if_neg (by omega), if_neg (by omega), if_neg (by omega)]
    · simp
    · have index : a - p = a - (p + 1) + 1 := by omega
      rw [index, List.getElem?_cons_succ]
      congr 1
      · exact propext (by omega)
      · exact if_neg (by omega)

theorem cursorFrames_cursorAt {r : Receiver} {row x : Byte} (hr : row.toNat < rows) (hx : x.toNat < width)
    (hc : r.pins.rst = true) (hb : r.bits = []) (hw : r.raw = false) :
    CursorAt (r.run (framesEvents (cursorFrames row x))) (row.toNat * 84 + x.toNat) := by
  rw [run_cursorFrames r hr hx hc hb hw]
  simp only [rows, width] at hr hx
  exact ⟨row.toNat, x.toNat, rfl, rfl, hr, hx, by omega⟩

/-- The cursor pair and data bytes that fit behind it: they lie from there on, every other byte as before (R64,
R65). -/
theorem readCell_run_placed {r : Receiver} {row x : Byte} (bs : List Byte) (hr : row.toNat < rows)
    (hx : x.toNat < width) (hc : r.pins.rst = true) (hb : r.bits = []) (hw : r.raw = false)
    (fits : row.toNat * 84 + x.toNat + bs.length ≤ 504) (a : Nat) :
    readCell (r.run (framesEvents (cursorFrames row x ++ bs.map .data))).mem a =
      if row.toNat * 84 + x.toNat ≤ a ∧ a < row.toNat * 84 + x.toNat + bs.length
      then bs[a - (row.toNat * 84 + x.toNat)]? else readCell r.mem a := by
  rw [framesEvents_append, run_append,
    run_datas bs _ ((run_frames_rst r _).trans hc) (run_frames_bits r _ hb),
    readCell_receiveDatas bs (cursorFrames_cursorAt hr hx hc hb hw) fits, run_cursorFrames r hr hx hc hb hw]
  rfl

/-- Settles O44: the 504 zero bytes lie from position (0, 0) on, which is the whole surface. -/
theorem clearBlanksDisplay : Obligations.ClearBlanksDisplay := by
  intro r s t es hl he _ ht a ha
  have zeros : (List.replicate surfaceBytes clearByte).length = 504 := List.length_replicate
  have blank : (List.replicate surfaceBytes clearByte)[a]? = some 0x00 := List.getElem?_replicate_of_lt ha
  have cell := readCell_run_placed (r := { r with raw := false }) (row := 0) (x := 0)
    (List.replicate surfaceBytes clearByte) (by decide) (by decide) (listening_rst hl) (listening_bits hl) rfl
    (by rw [zeros]; decide) a
  rw [request_eq_run_frames r (by simp) he ht, requestFrames, clearFrames]
  refine cell.trans ((if_pos ⟨Nat.zero_le a, ?_⟩).trans blank)
  rw [zeros]
  exact ha

end Sys2Proof.Proofs
end

section
/-! SUPPORT. No step stops (R71, R115, R145), and the addresses of the glyph ROM (R49). -/

namespace Sys2Proof.Proofs
open Sys2Proof.Machine Sys2Proof.Laws

theorem exists_decode_of_complete_line {rest : List Byte} (h : requestComplete (0x07 :: rest) = true) :
    ∃ i, decode (0x07 :: rest) = .ok (i, []) := by
  rw [requestComplete_iff, requestLength_line rfl] at h
  obtain _ | ⟨row, _ | ⟨col, _ | ⟨len, text⟩⟩⟩ := rest
  case cons.cons.cons =>
    have length : 4 + len.toNat = text.length + 4 := Option.some.inj h
    have wf : (Instr.line row col len text).wf = true := (lineTextFits_iff len text).mpr (by omega)
    have decoded := decode_encode wf []
    rw [List.append_nil] at decoded
    exact ⟨_, decoded⟩
  all_goals cases h

/-- Bytes as many as R71 says decode to a request with nothing after it. -/
theorem exists_decode_of_complete {rq : List Byte} (h : requestComplete rq = true) :
    ∃ i, decode rq = .ok (i, []) := by
  cases rq with
  | nil => cases h
  | cons op rest =>
    obtain h9 | rfl | rfl | rfl | rfl | rfl | rfl | rfl | rfl | rfl := opcode_cases op
    · rw [requestComplete_iff, requestLength_reserved h9] at h
      obtain rfl : rest = [] := by simpa using h
      exact ⟨.reserved op, by rw [decode_cons, decodeOperands_reserved h9]⟩
    on_goal 8 => exact exists_decode_of_complete_line h
    -- The other opcodes take at most three operand bytes.
    all_goals
      rw [requestComplete_iff] at h
      obtain _ | ⟨_, _ | ⟨_, _ | ⟨_, _ | ⟨_, _⟩⟩⟩⟩ := rest <;> cases h
      exact ⟨_, rfl⟩

theorem runPending_next {s : State} (h : requestComplete s.rqbuf = true) : ∃ t, runPending s = .next t := by
  obtain ⟨i, hd⟩ := exists_decode_of_complete h
  obtain ⟨u, he⟩ := exec_next i s
  exact ⟨complete u, by rw [runPending_eq hd, he, andThen_next]⟩

theorem acceptByte_next (b : Byte) (s : State) : ∃ t, acceptByte b s = .next t := by
  cases hc : requestComplete (s.rqbuf ++ [b]) with
  | false => exact ⟨_, acceptByte_missing hc⟩
  | true =>
    obtain ⟨i, hd⟩ := exists_decode_of_complete hc
    cases hi : instantPending (s.rqbuf ++ [b]) with
    | false => exact ⟨_, acceptByte_pending hd hi⟩
    | true =>
      obtain ⟨u, he⟩ := exec_next i (withLastByte b s)
      exact ⟨complete u, by rw [acceptByte_instant hd hi, he, andThen_next]⟩

theorem step_held_next {s : State} (hr : s.resetN = false) : ∃ t, step s = .next t := by
  cases hh : s.host with
  | nil => exact ⟨_, step_held_idle hr hh⟩
  | cons action rest =>
    cases action with
    | send b => exact ⟨_, step_held_send hr hh⟩
    | read a => exact ⟨_, step_held_read hr hh⟩
    | awaitReady => exact ⟨_, step_held_await hr hh⟩
    | driveResetN level => exact ⟨_, step_held_drive hr hh⟩

/-- Settles O6, by the cases of a step: only the run of a request could stop. A handshake runs one that is complete by
its own check, a block step one that is complete by the invariant. -/
theorem stepNeverStops : Obligations.StepNeverStops := by
  intro s hs
  cases hr : s.resetN with
  | false => exact step_held_next hr
  | true =>
    obtain ⟨a, rest, -, e⟩ | ⟨level, rest, -, e⟩ | ⟨-, b, rest, -, e⟩ | ⟨-, rest, -, e⟩ | ⟨-, -, e⟩ | ⟨busy, e⟩ :=
      step_cases hr <;> rw [e]
    · exact ⟨_, rfl⟩
    · exact ⟨_, rfl⟩
    · exact acceptByte_next b _
    · exact ⟨_, rfl⟩
    · exact ⟨_, rfl⟩
    · exact runPending_next (hs.busy busy).1

/-- Settles O29: the two branches of `memRead`. -/
theorem romAddressSpace : Obligations.RomAddressSpace :=
  fun _ => ⟨fun h => dif_pos h, fun h => dif_neg (Nat.not_lt.mpr h)⟩

end Sys2Proof.Proofs
end

section
/-! SUPPORT. The encoding of requests: round trips, the length rule, the examples (R69 to R76, R81). -/

namespace Sys2Proof.Proofs
open Sys2Proof.Machine Sys2Proof.Laws

/-- Settles O8: `decode_encode`, whose cases are the constructors of a request. -/
theorem decodeEncode : Obligations.DecodeEncode :=
  fun _ rest wf => decode_encode wf rest

/-- Settles O9: `decode_sound`, whose cases are the opcodes. -/
theorem encodeDecode : Obligations.EncodeDecode :=
  fun _ _ _ h => decode_sound h

/-- The length of a request is fixed by the bytes of the request alone (R71). -/
theorem requestLength_take {rq : List Byte} {n : Nat} (h : requestLength rq = some n) :
    requestLength (rq.take n) = some n := by
  cases rq with
  | nil => cases h
  | cons op rest =>
    by_cases h7 : op.toNat = 7
    · rw [requestLength_line h7] at h
      obtain ⟨len, hlen, rfl⟩ := Option.map_eq_some_iff.mp h
      rw [List.take_cons (by omega), requestLength_line h7, List.getElem?_take_of_lt (by omega), h]
    · obtain ⟨k, pos, fixed⟩ := requestLength_fixed h7
      obtain rfl : k = n := Option.some.inj ((fixed rest).symm.trans h)
      rw [List.take_cons pos, fixed]

theorem requestLength_of_decode {rq rest : List Byte} {i : Instr} (h : decode rq = .ok (i, rest)) :
    requestLength rq = some (encode i).length := by
  obtain ⟨wf, bytes⟩ := decode_sound h
  rw [← bytes]
  exact requestLength_append (encode_length i wf).2 rest

/-- Bytes at least as many as R71 says begin with a request. -/
theorem exists_decode_of_length_le {rq : List Byte} {n : Nat} (h : requestLength rq = some n) (fits : n ≤ rq.length) :
    ∃ r, decode rq = .ok r := by
  have complete : requestComplete (rq.take n) = true := by
    rw [requestComplete_iff, requestLength_take h, List.length_take_of_le fits]
  obtain ⟨i, hd⟩ := exists_decode_of_complete complete
  obtain ⟨wf, bytes⟩ := encode_of_decode hd
  have decoded := decode_encode wf (rq.drop n)
  rw [bytes, List.take_append_drop] at decoded
  exact ⟨_, decoded⟩

/-- The length of a request as the table of R71 gives it. -/
theorem requestLength_cons (op : Byte) (rest : List Byte) : requestLength (op :: rest) =
    if op.toNat ∈ [0x00, 0x01, 0x05] ∨ 0x09 ≤ op.toNat then some 1
    else if op.toNat ∈ [0x02, 0x03, 0x08] then some 2
    else if op.toNat = 0x04 then some 3
    else if op.toNat = 0x06 then some 4
    else rest[2]?.map fun len => 4 + len.toNat := by
  obtain h9 | rfl | rfl | rfl | rfl | rfl | rfl | rfl | rfl | rfl := opcode_cases op
  · rw [requestLength_reserved h9, if_pos (.inr h9)]
  on_goal 8 => exact requestLength_line rfl rest
  all_goals rfl

/-- Settles O10: a byte list is split at the length that R71 gives, and its first part decodes because it is
complete. -/
theorem requestLengthRule : Obligations.RequestLengthRule := by
  refine ⟨requestLength_cons, fun rq => ⟨?_, ?_⟩, fun rq => ⟨?_, ?_⟩⟩
  · rintro ⟨i, hd⟩
    rw [requestLength_of_decode hd, (encode_of_decode hd).2]
  · exact fun h => exists_decode_of_complete ((requestComplete_iff rq).mpr h)
  · rintro ⟨⟨i, rest⟩, hd⟩
    refine ⟨_, requestLength_of_decode hd, ?_⟩
    rw [← (decode_sound hd).2, List.length_append]
    exact Nat.le_add_right _ _
  · rintro ⟨n, hn, fits⟩
    exact exists_decode_of_length_le hn fits

/-- Settles O7: the decoder and the encoder run on the eleven examples. -/
theorem encodingExamples : Obligations.EncodingExamples := by
  unfold Obligations.EncodingExamples
  decide

/-- CTRL reads a bit written to CIDX with zeros above it (R34, R75). -/
theorem ctrlByte_bit_zero (s : State) (imm8 : Byte) :
    ctrlByte { s with cidx := imm8.getLsbD 0 } = imm8 &&& 0x01 := by
  have bit : imm8 &&& 0x01 = (BitVec.ofBool (imm8.getLsbD 0)).setWidth 8 :=
    BitVec.and_one_eq_setWidth_ofBool_getLsbD
  rw [bit]
  cases imm8.getLsbD 0 <;> rfl

/-- Settles O21: the meaning of WRCTRL, and the read of CTRL after it. -/
theorem wrctrlResult : Obligations.WrctrlResult :=
  fun s imm8 => ⟨exec_wrctrl imm8 s, ctrlByte_bit_zero s imm8⟩

end Sys2Proof.Proofs
end

section
/-! SUPPORT. The transmitted byte bit by bit, as it is traced (R83) and as it is seen on the wire (R86). -/

namespace Sys2Proof.Proofs
open Sys2Proof.Machine Sys2Proof.Laws

/-- Settles O16: `transmit` adds the events of the byte, bit 7 first, to an idle transport; the pins follow them. -/
theorem transmitResult : Obligations.TransmitResult := by
  intro b s
  rw [transmit_eq, afterEvents, pinsAfter_byteEvents]
  rfl

theorem clockWrites_append (level : Bool) (xs ys : List Event) :
    clockWrites level (xs ++ ys) = clockWrites level xs + clockWrites level ys :=
  List.countP_append

/-- A bit leaves `SCLK` low, where the next bit finds it (R86). -/
theorem pinsAfter_bitEvents (p : Pins) (bit : Bool) :
    pinsAfter p (bitEvents bit) = { p with sdin := bit, sclk := false } := rfl

/-- From `SCLK` low, both clock writes of a pulse reach the wire. -/
theorem wireTrace_pulse {p : Pins} (low : p.sclk = false) :
    wireTrace p [.set .sclk true, .set .sclk false] = [.set .sclk true, .set .sclk false] := by
  rw [wireTrace_set_kept (by simp [Pins.get, low]), wireTrace_set_kept (by simp [Pins.get]), wireTrace_nil]

/-- The pulse of a bit is on the wire whole; the write of `SDIN` before it is there where the level changes. -/
theorem wireTrace_bitEvents {p : Pins} (low : p.sclk = false) (bit : Bool) : wireTrace p (bitEvents bit) =
    (if p.get .sdin = bit then [] else [.set .sdin bit]) ++ [.set .sclk true, .set .sclk false] := by
  rw [bitEvents]
  split
  next same => rw [wireTrace_set_removed same, wireTrace_pulse low, List.nil_append]
  next differs => rw [wireTrace_set_kept differs, wireTrace_pulse (p := p.put .sdin bit) low, List.singleton_append]

/-- One bit is one pulse on the wire: one change of `SCLK` to each level (R86). -/
theorem clockWrites_wireTrace_bitEvents (level : Bool) {p : Pins} (low : p.sclk = false) (bit : Bool) :
    clockWrites level (wireTrace p (bitEvents bit)) = 1 := by
  have sdin : clockWrites level (if p.get .sdin = bit then [] else [.set .sdin bit]) = 0 := by
    split <;> rfl
  rw [wireTrace_bitEvents low, clockWrites_append, sdin]
  cases level <;> rfl

/-- Bits sent one after another from `SCLK` low are as many pulses on the wire. -/
theorem clockWrites_wireTrace_bits (level : Bool) (bit : Nat → Bool) (ks : List Nat) {p : Pins}
    (low : p.sclk = false) : clockWrites level (wireTrace p (ks.flatMap fun k => bitEvents (bit k))) = ks.length := by
  induction ks generalizing p with
  | nil => rfl
  | cons k ks ih =>
    rw [List.flatMap_cons, wireTrace_append, clockWrites_append, clockWrites_wireTrace_bitEvents level low,
      pinsAfter_bitEvents, ih rfl, List.length_cons, Nat.add_comm]

/-- Settles O17: the events that `transmit` adds are the eight bits of the byte. -/
theorem transmitWireEdges : Obligations.TransmitWireEdges := by
  intro b s es low added
  rw [transmit_eq] at added
  obtain rfl : byteEvents b = es := List.append_cancel_left added
  exact ⟨clockWrites_wireTrace_bits true _ _ low, clockWrites_wireTrace_bits false _ _ low⟩

end Sys2Proof.Proofs
end

section
/-! SUPPORT. The framer and the requests that only send through it: the shadow cursor's order (R95), INIT, CMD and DATA
(R96, R97, R100, R101). -/

namespace Sys2Proof.Proofs
open Sys2Proof.Machine Sys2Proof.Laws

/-- Settles O18: a shadow on the surface is at the row-major position after it, where position 504 is the first. -/
theorem advanceCursorOrder : Obligations.AdvanceCursorOrder := by
  intro s
  refine ⟨fun valid hrow hcol => ⟨_, _, advanceCursor_eq s, ?_⟩, fun invalid => ?_⟩
  · obtain ⟨row, col⟩ := advanceCursor_position s valid hrow hcol
    simp only [advanceCursor_eq, rows, width] at row col
    omega
  · simp [advanceCursor, invalid]

/-! The advance with the last column and the last row as register values (R95). -/

theorem advancedCol_eq (valid : Bool) (col : BitVec 7) :
    advancedCol valid col = if valid then (if col = 83 then 0 else col + 1) else col := by
  simp only [← BitVec.toNat_inj (x := col)]
  rfl

theorem advancedRow_eq (valid : Bool) (row : BitVec 3) (col : BitVec 7) :
    advancedRow valid row col = if valid ∧ col = 83 then (if row = 5 then 0 else row + 1) else row := by
  simp only [← BitVec.toNat_inj (x := col), ← BitVec.toNat_inj (x := row)]
  rfl

/-- Settles O23: the acceptance check, the invalidation and the events of one command byte. -/
theorem cmdResult : Obligations.CmdResult := by
  intro s imm8
  rw [exec_cmd, afterEvents, pinsAfter_command]
  rfl

/-- Settles O24: the acceptance check, one advance and the events of one data byte. -/
theorem dataResult : Obligations.DataResult := by
  intro s imm8
  rw [exec_data, afterEvents, pinsAfter_data, advanceCursor_eq, advancedCol_eq, advancedRow_eq]
  rfl

theorem framesEvents_commands (bs : List Byte) :
    framesEvents (bs.map .command) = bs.flatMap fun b => framedEvents (.command b) :=
  List.flatMap_map ..

/-- Settles O25: the acceptance check, then the body of INIT; the transport is idle after it if `INIT_SEQ` sends a
byte. -/
theorem initResult : Obligations.InitResult := by
  refine ⟨Nat.le_add_right _ _, fun s => ?_⟩
  rw [exec_init, initialise_eq, framesEvents_commands]
  by_cases empty : Config.initSeq = []
  · rw [if_pos empty, if_pos empty, if_pos empty]
    rfl
  · rw [if_neg empty, if_neg empty, if_neg empty]
    rfl

end Sys2Proof.Proofs
end

section
/-! SUPPORT. The requests that place the shadow cursor and nothing else: CURSOR (R106, R108, R109) and CLEAR
(R110, R111). -/

namespace Sys2Proof.Proofs
open Sys2Proof.Machine Sys2Proof.Laws

/-! Where framed bytes leave the pins. -/

/-- A framed byte writes every pin but `RST` (R93, R94). -/
theorem pinsAfter_framed_congr {p q : Pins} (f : Framed) (rst : p.rst = q.rst) :
    pinsAfter p (framedEvents f) = pinsAfter q (framedEvents f) := by
  cases f with
  | command b => rw [pinsAfter_command, pinsAfter_command, rst]
  | data b => rw [pinsAfter_data, pinsAfter_data, rst]

/-- Only the last of some framed bytes decides the pins. -/
theorem pinsAfter_frames_last (p : Pins) (fs : List Framed) (f : Framed) :
    pinsAfter p (framesEvents (fs ++ [f])) = pinsAfter p (framedEvents f) := by
  rw [framesEvents_append, pinsAfter_append, framesEvents_cons, framesEvents_nil, List.append_nil]
  exact pinsAfter_framed_congr f (pinsAfter_frames_rst fs p)

theorem pinsAfter_cursorFrames (p : Pins) (r x : Byte) : pinsAfter p (framesEvents (cursorFrames r x)) =
    { p with sclk := false, sdin := (cmdSetX x).getLsbD 0, dc := dcCmdLevel } :=
  (pinsAfter_frames_last p [.command (cmdSetY r)] _).trans (pinsAfter_command p _)

/-- The last byte of CLEAR is a zero data byte. -/
theorem clearFrames_eq_append_last : clearFrames =
    (cursorFrames 0 0 ++ List.replicate 503 (.data clearByte)) ++ [.data clearByte] := by
  rw [clearFrames, List.map_replicate, surfaceBytes, List.append_assoc]
  exact congrArg _ List.replicate_succ'

theorem pinsAfter_clearFrames (p : Pins) : pinsAfter p (framesEvents clearFrames) =
    { p with sclk := false, sdin := false, dc := !dcCmdLevel } := by
  rw [clearFrames_eq_append_last, pinsAfter_frames_last, pinsAfter_data]
  rfl

/-! The events of the framed bytes, written out. -/

theorem framesEvents_cursorFrames (r x : Byte) : framesEvents (cursorFrames r x) =
    framedEvents (.command (cmdSetY r)) ++ framedEvents (.command (cmdSetX x)) := by
  rw [cursorFrames, framesEvents_cons, framesEvents_cons, framesEvents_nil, List.append_nil]

theorem framesEvents_replicate (n : Nat) (f : Framed) :
    framesEvents (List.replicate n f) = (List.replicate n (framedEvents f)).flatten :=
  List.flatMap_replicate

theorem framesEvents_clearFrames : framesEvents clearFrames =
    framedEvents (.command (cmdSetY 0)) ++ framedEvents (.command (cmdSetX 0)) ++
      (List.replicate 504 (framedEvents (.data 0x00))).flatten := by
  rw [clearFrames, framesEvents_append, framesEvents_cursorFrames, List.map_replicate, framesEvents_replicate]
  rfl

/-- Settles O27: the acceptance check, the shadow back at the first position, and the events of the cursor pair and
the 504 zero bytes. -/
theorem clearResult : Obligations.ClearResult := by
  intro s
  rw [exec_clear, afterEvents, pinsAfter_clearFrames, framesEvents_clearFrames, ← List.append_assoc,
    ← List.append_assoc]
  rfl

/-- Settles O26: in range, the acceptance check, the shadow placed and the events of the cursor pair; out of range, the
acceptance check alone. -/
theorem cursorResult : Obligations.CursorResult := by
  refine fun s row x => ⟨fun hrow hx => ?_, exec_cursor_outside row x s⟩
  rw [exec_cursor row x s hrow hx, afterEvents, pinsAfter_cursorFrames, framesEvents_cursorFrames,
    ← List.append_assoc]
  rfl

end Sys2Proof.Proofs
end

section
/-! SUPPORT. The glyph of a character code: its place in the ROM (R113 to R117), and codes that are drawn alike (R114). -/

namespace Sys2Proof.Proofs
open Sys2Proof.Machine Sys2Proof.Laws

theorem drawable_iff (c : Byte) : drawable c = true ↔ 0x20 ≤ c.toNat ∧ c.toNat ≤ 0x7E ∧ c.toNat ≠ 0x40 := by
  have gap : c = gapChar ↔ c.toNat = 0x40 := BitVec.toNat_inj.symm
  simp [drawable, gap, firstChar, lastChar, and_assoc]

theorem subst_drawable {c : Byte} (h : 0x20 ≤ c.toNat ∧ c.toNat ≤ 0x7E ∧ c.toNat ≠ 0x40) : subst c = c :=
  if_pos ((drawable_iff c).mpr h)

theorem subst_undrawable {c : Byte} (h : c.toNat < 0x20 ∨ 0x7E < c.toNat ∨ c.toNat = 0x40) :
    subst c = fallbackChar :=
  if_neg fun drawn => by have := (drawable_iff c).mp drawn; omega

/-- Settles O28: a substituted code is drawable, so its three bytes lie in the ROM and, as it is not the gap, not in the
gap's slot. -/
theorem glyphAddressRule : Obligations.GlyphAddressRule := by
  refine fun c => ⟨fun low high gap => ?_, fun h => ?_, fun i => ?_⟩
  · rw [glyphAddr_toNat, subst_drawable ⟨low, high, gap⟩]
  · rw [glyphAddr_toNat, subst_undrawable h]
  · obtain ⟨low, high, gap⟩ := subst_range c
    have address : (glyphAddr c + BitVec.ofNat 9 i).toNat = (glyphAddr c).toNat + i := by
      rw [glyphAddr_add_toNat, glyphAddr_toNat]
    have inRom : (glyphAddr c).toNat + i < 285 := by rw [glyphAddr_toNat]; omega
    refine ⟨inRom, by rw [glyphAddr_toNat]; omega, ?_⟩
    rw [(romAddressSpace _).1 (address ▸ inRom)]
    simp only [address]

/-- Only the substituted code decides what is drawn (R114, R116). -/
theorem glyphFrames_congr {c d : Byte} (h : subst c = subst d) (row : Byte) (px : Nat) :
    glyphFrames row px c = glyphFrames row px d := by
  simp only [glyphFrames, glyphData, glyphColumn, h]

/-- Settles O32: both codes are substituted by the fallback character. -/
theorem undrawableDrawnAsFallback : Obligations.UndrawableDrawnAsFallback := by
  intro s row col c h
  have same : subst c = subst fallbackChar := (subst_undrawable h).trans (subst_drawable (by decide)).symm
  rw [exec_eq, exec_eq, requestEvents_of_ne_init s (by simp), requestEvents_of_ne_init s (by simp), requestFrames,
    requestFrames, glyphFrames_congr same]
  rfl

end Sys2Proof.Proofs
end


section
/-! SUPPORT. The whole next state of CHAR and LINE (R118 to R128). -/

namespace Sys2Proof.Proofs
open Sys2Proof.Machine Sys2Proof.Laws

/-- A request that draws, whose events are `es` and whose last glyph is at (row, px), field by field (R118, R138). -/
theorem drawn_eq (es : List Event) (op row : Byte) (px : Nat) (s : State) :
    endRaster (afterEvents es (endAt row px (afterProtocolCheck op s))) =
      { s with
        pins := pinsAfter s.pins es
        status := { s.status with curValid := true, errPreinit := s.status.errPreinit || !s.status.initDone }
        errcode := if s.status.initDone || s.status.anyError then s.errcode else op
        curRow := glyphEndRow row px
        curCol := glyphEndCol row px
        shift := 0
        bitcnt := 0
        raster := none
        trace := s.trace ++ es } := rfl

/-- Settles O30: on the surface, the events of the glyph and the shadow as far behind its place as it has data bytes; off
the surface, the acceptance check alone. -/
theorem charResult : Obligations.CharResult := by
  refine fun s row col ch => ⟨fun hrow hpx => ⟨glyphColumn ch, memRead_glyph ch, ?_⟩, exec_char_clipped row col ch s⟩
  rw [exec_char row col ch s hrow hpx, afterGlyph_eq, drawn_eq, glyphEndRow, glyphEndCol,
    ← glyphData_length (pixelColumn s.cidx col) ch]
  rfl

/-! The cells of a line. -/

/-- A line's cells are its drawn characters, four columns apart (R124, R126). -/
theorem lineCells_eq_drawnText (px : Nat) (len : Byte) (text : List Byte) :
    lineCells px (text.take len.toNat) = (drawnText px len text).zipIdx.map fun p => (px + 4 * p.2, p.1) :=
  lineCells_eq px (text.take len.toNat)

/-- The last cell of a line with something to draw is that of its last character. -/
theorem getLast?_lineCells {px : Nat} {len : Byte} {text : List Byte} (h : drawnText px len text ≠ []) :
    (lineCells px (text.take len.toNat)).getLast? =
      some (px + 4 * ((drawnText px len text).length - 1), (drawnText px len text).getLast h) := by
  rw [lineCells_eq_drawnText, List.getLast?_map, List.getLast?_zipIdx, List.getLast?_eq_some_getLast h, Nat.zero_add]
  rfl

/-- The events of a line, character by character (R124, R128). -/
theorem framesEvents_lineCells (row : Byte) (px : Nat) (len : Byte) (text : List Byte) :
    framesEvents (cellsFrames row (lineCells px (text.take len.toNat))) =
      (drawnText px len text).zipIdx.flatMap fun p => framesEvents (glyphFrames row (px + 4 * p.2) p.1) := by
  rw [framesEvents, cellsFrames, List.flatMap_assoc, lineCells_eq_drawnText, List.flatMap_map]
  rfl

/-- The shadow behind the last character of a line is four columns behind its place or at the row's end (R120, R128). -/
theorem shadow_behind_line {px : Nat} {len : Byte} {text : List Byte} (h : drawnText px len text ≠ []) (row : Byte) :
    glyphEndRow row (px + 4 * ((drawnText px len text).length - 1)) =
        BitVec.ofNat 3 ((row.toNat * 84 + min (px + 4 * (drawnText px len text).length) 84) / 84 % 6) ∧
      glyphEndCol row (px + 4 * ((drawnText px len text).length - 1)) =
        BitVec.ofNat 7 ((row.toNat * 84 + min (px + 4 * (drawnText px len text).length) 84) % 84) := by
  have onSurface := lineCells_px_lt (List.mem_of_getLast? (getLast?_lineCells h))
  have nonempty := List.length_pos_iff.mpr h
  generalize (drawnText px len text).length = n at onSurface nonempty ⊢
  simp only [width] at onSurface
  have stop : row.toNat * 84 + (px + 4 * (n - 1)) + min (84 - (px + 4 * (n - 1))) 4 =
      row.toNat * 84 + min (px + 4 * n) 84 := by omega
  rw [glyphEndRow, glyphEndCol, width, rows, stop]
  exact ⟨rfl, rfl⟩

/-- LINE on the surface with something to draw: its last character leaves the shadow (R124, R128). -/
theorem exec_line_drawn {row col len : Byte} {text : List Byte} {s : State} (hrow : row.toNat < rows)
    (h : drawnText (pixelColumn s.cidx col) len text ≠ []) :
    exec (.line row col len text) s = .next (endRaster (afterEvents
      (framesEvents (cellsFrames row (lineCells (pixelColumn s.cidx col) (text.take len.toNat))))
      (endAt row (pixelColumn s.cidx col + 4 * ((drawnText (pixelColumn s.cidx col) len text).length - 1))
        (afterProtocolCheck 0x07 s)))) := by
  rw [exec_line, afterLine, if_pos hrow, afterCells_eq, getLast?_lineCells h]

/-- LINE off the surface or with nothing to draw (R126, R127). -/
theorem exec_line_nothing {row col len : Byte} {text : List Byte} {s : State}
    (h : rows ≤ row.toNat ∨ drawnText (pixelColumn s.cidx col) len text = []) :
    exec (.line row col len text) s = .next (endRaster (afterProtocolCheck 0x07 s)) := by
  rw [exec_line]
  rcases h with off | empty
  · rw [afterLine, if_neg (by omega)]
  · rw [lineCells_eq_drawnText, empty, List.zipIdx_nil, List.map_nil, afterLine_nil]

/-- Settles O31: the cells of the line are its drawn characters, and the place of the last one gives the shadow; with
nothing to draw, the acceptance check alone. -/
theorem lineResult : Obligations.LineResult := by
  refine fun s row col len text => ⟨fun hrow drawn => ⟨glyphColumn, memRead_glyph, ?_⟩, exec_line_nothing⟩
  obtain ⟨endRow, endCol⟩ := shadow_behind_line (px := pixelColumn s.cidx col) drawn row
  rw [exec_line_drawn hrow drawn, drawn_eq, framesEvents_lineCells, endRow, endCol]
  rfl

/-! LINE one character at a time. -/

/-- After INIT the acceptance check of a protocol request does nothing (R138). -/
theorem afterProtocolCheck_initialised {s : State} (h : s.status.initDone = true) (op : Byte) :
    afterProtocolCheck op s = s := by
  have errPreinit : (s.status.errPreinit || !s.status.initDone) = s.status.errPreinit := by simp [h]
  have errcode : (if s.status.initDone || s.status.anyError then s.errcode else op) = s.errcode := if_pos (by simp [h])
  rw [afterProtocolCheck, errPreinit, errcode]

theorem pixelColumn_pixels (col : Byte) : pixelColumn false col = col.toNat := rfl

/-- CHAR on the surface's columns is a line of one cell (R123, R128). -/
theorem exec_char_eq_afterLine {row col ch : Byte} {s : State} (hx : pixelColumn s.cidx col < width) :
    exec (.char row col ch) s =
      .next (endRaster (afterLine row [(pixelColumn s.cidx col, ch)] (afterProtocolCheck 0x06 s))) := by
  rw [afterLine]
  split
  · next hrow => exact exec_char row col ch s hrow hx
  · next hrow => exact exec_char_clipped row col ch s (.inl (by omega))

/-- The end of CHAR between two parts of a line is lost on the line's own end (R41). -/
theorem endRaster_afterLine_endRaster (row : Byte) (cells : List (Nat × Byte)) (s : State) :
    endRaster (afterLine row cells (endRaster s)) = endRaster (afterLine row cells s) := by
  change setRaster none (afterLine row cells (setRaster none s)) = setRaster none (afterLine row cells s)
  rw [← afterLine_raster, setRaster_setRaster]

/-- Settles O33: the cells of the line are the cell of the CHAR and those of the rest, and CHAR leaves `CIDX` and
`INIT_DONE` to the LINE of the rest. -/
theorem lineIsCharThenLine : Obligations.LineIsCharThenLine := by
  intro s t row col len c cs pixels initialised hc hcol hlen hchar
  have hx : pixelColumn s.cidx col < width := by rw [pixels]; exact hcol
  have tPixels : t.cidx = false := by
    rw [exec_eq_next hchar, afterEvents_cidx, requestRegisters_cidx s (by simp), pixels]
  have tInitialised : t.status.initDone = true := by
    rw [exec_eq_next hchar, afterEvents_status, requestRegisters_initDone, if_neg (by simp), initialised]
  have further : (col + 4).toNat = col.toNat + 4 := by bv_omega
  have rest : (len - 1).toNat = cs.length := by bv_omega
  have cells : lineCells col.toNat (c :: cs) = (col.toNat, c) :: lineCells (col.toNat + 4) cs :=
    if_pos ⟨hc, hcol⟩
  rw [exec_char_eq_afterLine hx, afterProtocolCheck_initialised initialised, pixels,
    pixelColumn_pixels] at hchar
  rw [exec_line, exec_line, afterProtocolCheck_initialised initialised, afterProtocolCheck_initialised tInitialised,
    pixels, tPixels, pixelColumn_pixels, pixelColumn_pixels, hlen, rest, further, List.take_succ_cons, List.take_length,
    cells, afterLine_cons]
  cases hchar
  rw [endRaster_afterLine_endRaster]

end Sys2Proof.Proofs
end

section
/-! SUPPORT. Glyphs on the display of a listening receiver (R118, R120, R128). -/

namespace Sys2Proof.Proofs
open Sys2Proof.Machine Sys2Proof.Laws

/-- The receiver takes in whole framed bytes, and their command bytes move its cursor (R65, R66). -/
def Receiving (r : Receiver) : Prop := r.pins.rst = true ∧ r.bits = [] ∧ r.raw = false

theorem receiving_of_listening {r : Receiver} {s : State} (h : Listening r s) : Receiving { r with raw := false } :=
  ⟨listening_rst h, listening_bits h, rfl⟩

theorem receiving_run_frames {r : Receiver} (h : Receiving r) (fs : List Framed) :
    Receiving (r.run (framesEvents fs)) := by
  obtain ⟨rst, bits, raw⟩ := h
  exact ⟨(run_frames_rst r fs).trans rst, run_frames_bits r fs bits, (run_raw r _).trans raw⟩

/-! One glyph. -/

/-- The address lies in the four columns of a row from pixel column `px` on, as far as they are on the surface. -/
def InCell (row : Byte) (px a : Nat) : Prop := a / 84 = row.toNat ∧ px ≤ a % 84 ∧ a % 84 < px + 4

theorem inCell_column (row : Byte) {px i : Nat} (hi : i < 4) (fits : px + i < 84) :
    InCell row px (row.toNat * 84 + (px + i)) ∧ (row.toNat * 84 + (px + i)) % 84 - px = i := by
  unfold InCell
  omega

/-- The data bytes of a glyph of the surface lie from its place on, every other byte as before (R64, R120). -/
theorem readCell_run_glyph {r : Receiver} (h : Receiving r) {row : Byte} {px : Nat} (ch : Byte) (hr : row.toNat < 6)
    (hx : px < 84) (a : Nat) : readCell (r.run (framesEvents (glyphFrames row px ch))).mem a =
      if row.toNat * 84 + px ≤ a ∧ a < row.toNat * 84 + px + min (84 - px) 4
      then (glyphData px ch)[a - (row.toNat * 84 + px)]? else readCell r.mem a := by
  obtain ⟨rst, bits, raw⟩ := h
  have column : (BitVec.ofNat 8 px).toNat = px := by rw [BitVec.toNat_ofNat]; omega
  have count : (glyphData px ch).length = min (84 - px) 4 := glyphData_length px ch
  have cell := readCell_run_placed (x := BitVec.ofNat 8 px) (glyphData px ch) hr (by rw [column]; exact hx) rst bits raw
    (by rw [column, count]; omega) a
  rw [column, count] at cell
  exact cell

theorem readCell_run_glyph_inside {r : Receiver} (h : Receiving r) {row : Byte} {px : Nat} (ch : Byte)
    (hr : row.toNat < 6) (hx : px < 84) {a : Nat} (inside : InCell row px a) :
    readCell (r.run (framesEvents (glyphFrames row px ch))).mem a = (glyphData px ch)[a % 84 - px]? := by
  obtain ⟨here, left, right⟩ := inside
  have index : a - (row.toNat * 84 + px) = a % 84 - px := by omega
  rw [readCell_run_glyph h ch hr hx, if_pos (by omega), index]

theorem readCell_run_glyph_outside {r : Receiver} (h : Receiving r) {row : Byte} {px : Nat} (ch : Byte)
    (hr : row.toNat < 6) (hx : px < 84) {a : Nat} (outside : ¬ InCell row px a) :
    readCell (r.run (framesEvents (glyphFrames row px ch))).mem a = readCell r.mem a := by
  rw [readCell_run_glyph h ch hr hx]
  exact if_neg fun written => outside (by unfold InCell; omega)

/-- A memory with a glyph's data bytes in its cell has the glyph's columns and its blank there (R116, R119). -/
theorem columns_of_cell {m : DisplayMemory} {row : Byte} {px : Nat} {c : Byte}
    (cell : ∀ a, InCell row px a → readCell m a = (glyphData px c)[a % 84 - px]?) :
    (∀ i : Fin 3, px + i < 84 →
      readCell m (row.toNat * 84 + (px + i)) = memRead (glyphAddr c + BitVec.ofNat 9 i)) ∧
    (px + 3 < 84 → readCell m (row.toNat * 84 + (px + 3)) = some blankByte) := by
  have byte : ∀ i < 4, px + i < 84 → readCell m (row.toNat * 84 + (px + i)) =
      [glyphColumn c 0, glyphColumn c 1, glyphColumn c 2, blankByte][i]? := by
    intro i hi fits
    obtain ⟨inside, index⟩ := inCell_column row hi fits
    rw [cell _ inside, index, glyphData, List.getElem?_take_of_lt (by rw [width]; omega)]
  refine ⟨fun i fits => ?_, byte 3 (by decide)⟩
  rw [byte i (by omega) fits, memRead_glyph]
  fin_cases i <;> rfl

/-- Settles O45: on the surface the glyph lies in its cell and all else is as before; off it nothing is sent. -/
theorem charOnDisplay : Obligations.CharOnDisplay := by
  intro r s t es row col ch hl he _ ht px m
  have hears := receiving_of_listening hl
  have sent : m = (Receiver.run { r with raw := false } (framesEvents
      (if row.toNat < 6 ∧ px < 84 then glyphFrames row px ch else []))).mem :=
    congrArg Receiver.mem (request_eq_run_frames r (by simp) he ht)
  by_cases on : row.toNat < 6 ∧ px < 84
  · rw [sent, if_pos on]
    obtain ⟨columns, blank⟩ := columns_of_cell fun a => readCell_run_glyph_inside hears ch on.1 on.2 (a := a)
    exact ⟨fun _ => columns, fun _ => blank, fun a outside =>
      readCell_run_glyph_outside hears ch on.1 on.2 fun inside => outside ⟨on.1, inside⟩⟩
  · rw [sent, if_neg on]
    exact ⟨fun hrow i fits => by omega, fun hrow fits => by omega, fun _ _ => rfl⟩

/-! The glyphs of a line. -/

section
variable {row : Byte} {r : Receiver} {a : Nat}

/-- Glyphs in order leave a byte that is in none of their cells. -/
theorem readCell_run_cells_outside (h : Receiving r) (hr : row.toNat < 6) (cells : List (Nat × Byte))
    (hx : ∀ p ∈ cells, p.1 < width) (outside : ∀ p ∈ cells, ¬ InCell row p.1 a) :
    readCell (r.run (framesEvents (cellsFrames row cells))).mem a = readCell r.mem a := by
  induction cells generalizing r with
  | nil => rfl
  | cons q cells ih =>
    rw [cellsFrames, List.flatMap_cons, framesEvents_append, run_append]
    exact (ih (receiving_run_frames h _) (fun p hp => hx p (.tail _ hp)) fun p hp => outside p (.tail _ hp)).trans
      (readCell_run_glyph_outside h q.2 hr (hx q (.head _)) (outside q (.head _)))

/-- Of glyphs from left to right without overlap, each one lies in its cell at the end. -/
theorem readCell_run_cells_inside (h : Receiving r) (hr : row.toNat < 6) {cells : List (Nat × Byte)}
    (hx : ∀ p ∈ cells, p.1 < width) (apart : cells.Pairwise fun p q => p.1 + 4 ≤ q.1) {p : Nat × Byte} (hp : p ∈ cells)
    (inside : InCell row p.1 a) :
    readCell (r.run (framesEvents (cellsFrames row cells))).mem a = (glyphData p.1 p.2)[a % 84 - p.1]? := by
  induction cells generalizing r with
  | nil => cases hp
  | cons q cells ih =>
    obtain ⟨behind, apart⟩ := List.pairwise_cons.mp apart
    have hx' : ∀ p ∈ cells, p.1 < width := fun p hp => hx p (.tail _ hp)
    rw [cellsFrames, List.flatMap_cons, framesEvents_append, run_append]
    cases hp with
    | head =>
      have kept : ∀ q ∈ cells, ¬ InCell row q.1 a := fun q hq elsewhere => by
        have := behind q hq
        unfold InCell at *
        omega
      exact (readCell_run_cells_outside (receiving_run_frames h _) hr cells hx' kept).trans
        (readCell_run_glyph_inside h p.2 hr (hx p (.head _)) inside)
    | tail _ hp => exact ih (receiving_run_frames h _) hx' apart hp

end

/-- The cells of a line are its drawn characters by their index (R124). -/
theorem mem_lineCells_iff {px : Nat} {len : Byte} {text : List Byte} {p : Nat × Byte} :
    p ∈ lineCells px (text.take len.toNat) ↔ ∃ k, (drawnText px len text)[k]? = some p.2 ∧ px + 4 * k = p.1 := by
  simp only [lineCells_eq_drawnText, List.mem_map, List.mem_zipIdx_iff_getElem?, Prod.exists, Prod.ext_iff]
  constructor
  · rintro ⟨c, k, drawn, place, rfl⟩
    exact ⟨k, drawn, place⟩
  · rintro ⟨k, drawn, place⟩
    exact ⟨p.2, k, drawn, place, rfl⟩

theorem le_px_of_mem_lineCells {px : Nat} {text : List Byte} {p : Nat × Byte} (h : p ∈ lineCells px text) :
    px ≤ p.1 := by
  rw [lineCells_eq] at h
  obtain ⟨_, _, rfl⟩ := List.mem_map.mp h
  exact Nat.le_add_right px _

/-- The cells of a line follow each other without overlap (R124). -/
theorem lineCells_apart (px : Nat) (text : List Byte) : (lineCells px text).Pairwise fun p q => p.1 + 4 ≤ q.1 := by
  induction text generalizing px with
  | nil => exact .nil
  | cons ch rest ih =>
    rw [lineCells]
    split
    · exact .cons (fun _ => le_px_of_mem_lineCells) (ih _)
    · exact .nil

/-- Settles O46: every character's glyph lies in its cell, and an address outside the line lies in no cell of it. -/
theorem lineOnDisplay : Obligations.LineOnDisplay := by
  intro r s t es row col len text hl he _ ht px m
  have hears := receiving_of_listening hl
  have onSurface : ∀ p ∈ lineCells px (text.take len.toNat), p.1 < width := fun _ => lineCells_px_lt
  have sent : m = (Receiver.run { r with raw := false } (framesEvents
      (if row.toNat < 6 then cellsFrames row (lineCells px (text.take len.toNat)) else []))).mem :=
    congrArg Receiver.mem (request_eq_run_frames r (by simp) he ht)
  by_cases hrow : row.toNat < 6
  · rw [sent, if_pos hrow]
    refine ⟨fun _ k c drawn => columns_of_cell fun a inside => ?_, fun a outside => ?_⟩
    · exact readCell_run_cells_inside hears hrow onSurface (lineCells_apart px _) (p := (px + 4 * k, c))
        (mem_lineCells_iff.mpr ⟨k, drawn, rfl⟩) inside
    · refine readCell_run_cells_outside hears hrow _ onSurface fun p hp inside => outside ?_
      obtain ⟨k, drawn, place⟩ := mem_lineCells_iff.mp hp
      obtain ⟨inText, -⟩ := List.getElem?_eq_some_iff.mp drawn
      obtain ⟨here, left, right⟩ := inside
      exact ⟨hrow, here, by omega, by omega⟩
  · rw [sent, if_neg hrow]
    exact ⟨fun on => absurd on hrow, fun _ _ => rfl⟩

end Sys2Proof.Proofs
end

section
/-! SUPPORT. NOP (R133) and register reads of an idle block (R135). -/

namespace Sys2Proof.Proofs
open Sys2Proof.Machine Sys2Proof.Laws

/-- Completion takes back what the last byte of a request set (R22, R40). -/
theorem complete_withLastByte {s : State} (hb : s.status.busy = false) (hq : s.rqbuf = []) (b : Byte) :
    complete (withLastByte b s) = s := by
  obtain ⟨_, ⟨_, _, _, _, _, _⟩, _, _, _, _, _, _, _, _, _, _, _, _, _, _⟩ := s
  subst hb hq
  rfl

/-- An idle block takes the byte of a NOP and is idle again (R29, R133). -/
theorem acceptByte_nop_idle {s : State} (hb : s.status.busy = false) (hq : s.rqbuf = []) :
    acceptByte 0x00 s = .next s := by
  have whole : s.rqbuf ++ [0x00] = [0x00] := congrArg (· ++ [0x00]) hq
  have hd : decode (s.rqbuf ++ [0x00]) = .ok (.nop, []) := by rw [whole]; rfl
  have hi : instantPending (s.rqbuf ++ [0x00]) = true := by rw [whole]; rfl
  rw [acceptByte_instant hd hi, exec_nop, andThen_next, complete_withLastByte hb hq]

/-- Settles O20: the meaning of NOP, and its run within the handshake. -/
theorem nopResult : Obligations.NopResult := by
  refine ⟨exec_nop, fun s rest ready hq hh => ?_⟩
  obtain ⟨hr, hb⟩ := (reqReady_iff s).mp ready
  rw [step_send hr hb hh]
  exact acceptByte_nop_idle (s := { s with host := rest }) hb hq

/-- With BUSY 0 a read finds the registers as they are (R135). -/
theorem readView_idle {s : State} (hb : s.status.busy = false) : readView s = s :=
  if_neg (by simp [hb])

theorem readRegister_idle {s : State} (hb : s.status.busy = false) (a : RegAddr) :
    readRegister a s = registerByte a s :=
  congrArg (registerByte a) (readView_idle hb)

theorem hostRead_idle {s : State} (hb : s.status.busy = false) (a : RegAddr) :
    hostRead a s = { s with lastRead := some (a, registerByte a s) } := by
  have draws_kept : (if s.status.busy then s.draws + 1 else s.draws) = s.draws := if_neg (by simp [hb])
  rw [hostRead, readRegister_idle hb, draws_kept]

/-- The bits of STATUS from bit 0 (R135): the byte is written from bit 7. -/
theorem statusByte_getLsbD (s : State) (k : Fin 8) :
    (statusByte s).getLsbD k =
      [s.status.busy, s.status.initDone, s.status.curValid, s.status.errPreinit, s.status.errReinit,
        s.status.errBadop, s.pins.dc, false][k] := by
  refine BitVec.getLsbD_ofBoolListBE.trans ?_
  fin_cases k <;> rfl

/-- Settles O39: with BUSY 0 a read is of the state itself, so each register is its byte there, and no free value is
drawn. -/
theorem registerReads : Obligations.RegisterReads := by
  refine ⟨fun s hb => ?_, fun s a rest hr hb hh => ?_⟩
  · simp only [readRegister_idle hb]
    exact ⟨statusByte_getLsbD s, rfl, BitVec.toNat_setWidth_of_le (by decide), BitVec.toNat_setWidth_of_le (by decide),
      rfl, rfl, rfl, rfl⟩
  · rw [step_read hr hh, hostRead_idle (s := { s with host := rest }) hb, readRegister_idle hb]
    rfl

end Sys2Proof.Proofs
end

section
/-! SUPPORT. What a request does to the error bits and ERRCODE (R137 to R139, R142): its acceptance check raises at most
one error, and nothing it does after that touches the error record. -/

namespace Sys2Proof.Proofs
open Sys2Proof.Machine Sys2Proof.Laws

/-- The error record: the three error bits and `ERRCODE` (R32, R37). -/
def errorRecord (s : State) : Bool × Bool × Bool × Byte :=
  (s.status.errPreinit, s.status.errReinit, s.status.errBadop, s.errcode)

theorem errorRecord_eq_iff (s t : State) : errorRecord t = errorRecord s ↔
    t.status.errPreinit = s.status.errPreinit ∧ t.status.errReinit = s.status.errReinit ∧
      t.status.errBadop = s.status.errBadop ∧ t.errcode = s.errcode := by
  simp only [errorRecord, Prod.mk.injEq]

theorem errorRecord_advanceCursor (s : State) : errorRecord (advanceCursor s) = errorRecord s := by
  rw [advanceCursor_eq]
  rfl

theorem errorRecord_initRegisters (s : State) : errorRecord (initRegisters s) = errorRecord s := by
  unfold initRegisters
  split <;> rfl

theorem errorRecord_afterLineRegisters (row : Byte) (cells : List (Nat × Byte)) (s : State) :
    errorRecord (afterLineRegisters row cells s) = errorRecord s := by
  unfold afterLineRegisters
  split
  · cases cells.getLast? <;> rfl
  · rfl

/-- Past its acceptance check a protocol request leaves the error record alone (R138, R144). -/
theorem errorRecord_protocol (s : State) {i : Instr} (h : isProtocol i = true) :
    errorRecord (requestRegisters s i) = errorRecord (afterProtocolCheck i.opcode s) := by
  cases i with
  | cmd imm8 => rfl
  | data imm8 => exact errorRecord_advanceCursor _
  | cursor row x =>
    rw [requestRegisters]
    split <;> rfl
  | clear => rfl
  | char row col ch =>
    rw [requestRegisters]
    split <;> rfl
  | line row col len text => exact errorRecord_afterLineRegisters row _ _
  | _ => cases h

theorem ne_init_of_isProtocol {i : Instr} (h : isProtocol i = true) : i ≠ .init := by
  rintro rfl
  cases h

theorem isReserved_of_isProtocol {i : Instr} (h : isProtocol i = true) : isReserved i = false := by
  cases i with
  | reserved op => cases h
  | _ => rfl

/-- Settles O34: the error record is that of the acceptance check, of a protocol request, of INIT, or of a reserved
opcode; NOP and WRCTRL have none. -/
theorem acceptanceErrors : Obligations.AcceptanceErrors := by
  intro i s t h
  obtain rfl := exec_eq_next h
  by_cases protocol : isProtocol i = true
  · obtain ⟨preinit, reinit, badop, errcode⟩ := (errorRecord_eq_iff _ _).mp (errorRecord_protocol s protocol)
    rw [afterEvents_status, afterEvents_errcode, preinit, reinit, badop, errcode]
    cases done : s.status.initDone <;> cases recorded : s.status.anyError <;>
      simp [afterProtocolCheck, protocol, ne_init_of_isProtocol protocol, isReserved_of_isProtocol protocol, done,
        recorded]
  · cases i with
    | nop => simp [requestRegisters, isProtocol, isReserved]
    | wrctrl imm8 => simp [requestRegisters, isProtocol, isReserved]
    | init =>
      obtain ⟨preinit, reinit, badop, errcode⟩ :=
        (errorRecord_eq_iff _ _).mp (errorRecord_initRegisters (afterInitCheck s))
      rw [afterEvents_status, afterEvents_errcode, requestRegisters, preinit, reinit, badop, errcode]
      cases done : s.status.initDone <;> cases recorded : s.status.anyError <;>
        simp [afterInitCheck, isProtocol, isReserved, Instr.opcode, done, recorded]
    | reserved op =>
      cases recorded : s.status.anyError <;>
        simp [requestRegisters, isProtocol, isReserved, Instr.opcode, Status.setError, recorded]
    | _ => exact absurd rfl protocol

theorem noErrors_iff (s : State) : s.noErrors = true ↔
    s.status.errPreinit = false ∧ s.status.errReinit = false ∧ s.status.errBadop = false := by
  simp [State.noErrors, Status.anyError, and_assoc]

/-- Settles O35: each error bit stays clear exactly when it was clear and the request does not raise it. -/
theorem noErrorMeansCorrectUse : Obligations.NoErrorMeansCorrectUse := by
  intro i s t h
  obtain ⟨preinit, reinit, badop, -⟩ := acceptanceErrors i s t h
  have preinitClear : t.status.errPreinit = false ↔
      s.status.errPreinit = false ∧ (isProtocol i = true → s.status.initDone = true) := by simp [preinit]
  have reinitClear : t.status.errReinit = false ↔
      s.status.errReinit = false ∧ (i = .init → s.status.initDone = false) := by simp [reinit]
  have badopClear : t.status.errBadop = false ↔ s.status.errBadop = false ∧ isReserved i = false := by simp [badop]
  rw [noErrors_iff, noErrors_iff, preinitClear, reinitClear, badopClear]
  tauto

/-- Settles O22: the decoder takes the one byte, and its meaning is to raise ERR_BADOP. -/
theorem reservedResult : Obligations.ReservedResult := by
  refine fun op reserved => ⟨fun rest => ?_, fun s => exec_reserved op s⟩
  rw [decode_cons, decodeOperands_reserved reserved rest]

end Sys2Proof.Proofs
end

section
/-! SUPPORT. Block reset while a request is in execution (R24, R158). -/

namespace Sys2Proof.Proofs
open Sys2Proof.Machine Sys2Proof.Laws

/-- Of the pending request's events, block reset keeps a first part whose length is the free value drawn (R158,
log 12). -/
theorem eventsAtReset_pending {s u : State} {i : Instr} {es : List Event} (busy : s.status.busy = true)
    (hd : decode s.rqbuf = .ok (i, [])) (he : exec i s = .next u) (events : u.trace = s.trace ++ es) :
    eventsAtReset s = s.trace ++ es.take (Config.resetCut s.draws) := by
  rw [eventsAtReset, if_pos busy, runPending_eq hd, he, andThen_next]
  change s.trace ++ (u.trace.drop s.trace.length).take _ = _
  rw [events, List.drop_left]

/-- Settles O3: the run that block reset ends is recorded with `eventsAtReset`. -/
theorem resetCutsRequest : Obligations.ResetCutsRequest := by
  intro s u i es rest hr busy hd hh he events
  have cut := eventsAtReset_pending (s := { s with host := rest }) busy hd he events
  exact ⟨_, Config.resetCut s.draws, step_drive hr hh, rfl, congrArg (fun run => s.earlier ++ [run]) cut⟩

end Sys2Proof.Proofs
end

section
/-! SUPPORT. The number of events of every request (R171). -/

namespace Sys2Proof.Proofs
open Sys2Proof.Machine Sys2Proof.Laws

/-- A glyph on the surface is the cursor pair and the data bytes that fit its row (R118, R120). -/
theorem glyphEvents_length {row : Byte} {px : Nat} (hr : row.toNat < rows) (hx : px < width) (ch : Byte) :
    (framesEvents (glyphFrames row px ch)).length = glyphEventCount row px := by
  have frames : (glyphFrames row px ch).length = 2 + min (84 - px) 4 := by
    rw [glyphFrames, List.length_append, List.length_map, glyphData_length]
    rfl
  rw [framesEvents_length, frames, glyphEventCount, if_neg (Nat.not_le.mpr hr)]
  simp only [width] at hx
  split_ifs <;> omega

theorem glyphEventCount_clipped {row : Byte} {px : Nat} (h : rows ≤ row.toNat ∨ width ≤ px) :
    glyphEventCount row px = 0 := by
  obtain off | off := h
  · exact if_pos off
  · simp only [width] at off
    rw [glyphEventCount]
    split_ifs <;> omega

/-- The cells of a line send their glyphs' events, and nothing in a row off the surface (R127, R128). -/
theorem lineEvents_length (row : Byte) {cells : List (Nat × Byte)} (onSurface : ∀ p ∈ cells, p.1 < width) :
    (framesEvents (if row.toNat < rows then cellsFrames row cells else [])).length =
      (cells.map fun p => glyphEventCount row p.1).sum := by
  by_cases hr : row.toNat < rows
  · rw [if_pos hr]
    induction cells with
    | nil => rfl
    | cons p cells ih =>
      obtain ⟨first, rest⟩ := List.forall_mem_cons.mp onSurface
      have frames : cellsFrames row (p :: cells) = glyphFrames row p.1 p.2 ++ cellsFrames row cells := rfl
      rw [frames, framesEvents_append, List.length_append, glyphEvents_length hr first, ih rest, List.map_cons,
        List.sum_cons]
  · have clipped : ∀ p : Nat × Byte, glyphEventCount row p.1 = 0 :=
      fun _ => glyphEventCount_clipped (.inl (Nat.not_lt.mp hr))
    simp [hr, clipped]

/-- Where the cells of a line stand, by the index of their characters (R124). -/
theorem map_px_lineCells (px : Nat) (len : Byte) (text : List Byte) (f : Nat → Nat) :
    (lineCells px (text.take len.toNat)).map (fun p => f p.1) =
      (List.range (drawnText px len text).length).map fun k => f (px + 4 * k) := by
  rw [lineCells_eq_drawnText, List.map_map, List.range_eq_range', ← List.zipIdx_map_snd, List.map_map]
  rfl

/-- Every request has as many events as the table of R171 says. -/
theorem requestEvents_length (i : Instr) (s : State) : (requestEvents s i).length = eventCount s.cidx i := by
  cases i with
  | nop => rfl
  | init =>
    rw [requestEvents, List.length_append, framesEvents_length]
    simp [requestFrames, resetPulse, eventCount]
  | cmd imm8 => exact framesEvents_length [.command imm8]
  | data imm8 => exact framesEvents_length [.data imm8]
  | cursor row x =>
    rw [requestEvents_of_ne_init _ (by simp), requestFrames, framesEvents_length, apply_ite List.length, eventCount]
    exact apply_ite (25 * ·) _ _ _
  | clear =>
    rw [requestEvents_of_ne_init _ (by simp), requestFrames, framesEvents_length, clearFrames, List.length_append,
      List.length_map, List.length_replicate]
    rfl
  | char row col ch =>
    rw [requestEvents_of_ne_init _ (by simp), requestFrames]
    change _ = glyphEventCount row (pixelColumn s.cidx col)
    split
    · next h => exact glyphEvents_length h.1 h.2 ch
    · next h => exact (glyphEventCount_clipped (by omega)).symm
  | line row col len text =>
    rw [requestEvents_of_ne_init _ (by simp), requestFrames, lineEvents_length row fun _ => lineCells_px_lt,
      map_px_lineCells]
    rfl
  | wrctrl imm8 => rfl
  | reserved op => rfl

/-- Settles O38: a request adds its events to the trace and nothing else. -/
theorem eventCounts : Obligations.EventCounts := by
  intro i s t h
  obtain rfl := exec_eq_next h
  rw [afterEvents_trace, requestRegisters_trace, List.length_append, requestEvents_length]

end Sys2Proof.Proofs
end

section
/-! SUPPORT. Register reads while BUSY (R166), and the end of a run (R168, R172): what a read finds does not depend on
the host's side. -/

namespace Sys2Proof.Proofs
open Sys2Proof.Machine Sys2Proof.Laws

/-! The acceptance check. -/

/-- The acceptance check raises at most one error (R138). -/
theorem accept_cases (op : Byte) (s : State) : accept op s = s ∨ ∃ e, accept op s = raiseErr e op s := by
  unfold accept
  split_ifs
  · exact .inr ⟨_, rfl⟩
  · exact .inr ⟨_, rfl⟩
  · exact .inr ⟨_, rfl⟩
  · exact .inl rfl

theorem accept_keeps (op : Byte) (s : State) : (accept op s).status.busy = s.status.busy ∧
    (accept op s).status.initDone = s.status.initDone ∧ (accept op s).cidx = s.cidx := by
  obtain same | ⟨e, raised⟩ := accept_cases op s
  · rw [same]
    exact ⟨rfl, rfl, rfl⟩
  · rw [raised]
    cases e <;> exact ⟨rfl, rfl, rfl⟩

theorem opcode_range_of_isProtocol {i : Instr} (h : isProtocol i = true) :
    2 ≤ i.opcode.toNat ∧ i.opcode.toNat ≤ 7 := by
  cases i with
  | nop | init | wrctrl | reserved => cases h
  | _ => simp [Instr.opcode]

/-- A request leaves the error record as its acceptance check does (R138, R144). -/
theorem errorRecord_exec {i : Instr} {s t : State} (wf : i.wf = true) (h : exec i s = .next t) :
    errorRecord t = errorRecord (accept i.opcode s) := by
  obtain rfl := exec_eq_next h
  change errorRecord (requestRegisters s i) = _
  by_cases protocol : isProtocol i = true
  · rw [errorRecord_protocol s protocol, accept_protocol (opcode_range_of_isProtocol protocol)]
  · cases i with
    | nop => rfl
    | wrctrl imm8 => rfl
    | init => exact (errorRecord_initRegisters _).trans (congrArg errorRecord (accept_init s).symm)
    | reserved op => exact congrArg errorRecord (accept_reserved ((isReservedOpcode_iff op).mp wf) s).symm
    | _ => exact absurd rfl protocol

/-! What a read finds. -/

/-- The state with the check of the pending request done, if there is one (log 3). -/
def pendingChecked (s : State) : State := s.rqbuf.head?.elim s fun op => accept op s

/-- The registers with the n-th free values of R166 (log 11). -/
def withFreeValues (n : Nat) (s : State) : State :=
  { s with
    curRow := Config.busyCurRow n
    curCol := Config.busyCurCol n
    status := { s.status with curValid := Config.busyCurValid n }
    pins := { s.pins with dc := Config.busyMode n } }

theorem readView_eq (s : State) : readView s =
    if s.status.busy then withFreeValues s.draws (pendingChecked s) else s := by
  rw [readView, pendingChecked]
  cases s.rqbuf <;> rfl

/-- The state with other actions of the host to come and another last read. -/
def withHostSide (host : List HostAction) (lastRead : Option (RegAddr × Byte)) (s : State) : State :=
  { s with host := host, lastRead := lastRead }

section
variable (host : List HostAction) (lastRead : Option (RegAddr × Byte)) (s : State)

theorem accept_withHostSide (op : Byte) :
    accept op (withHostSide host lastRead s) = withHostSide host lastRead (accept op s) := by
  simp only [accept, apply_ite (withHostSide host lastRead)]
  rfl

theorem pendingChecked_withHostSide :
    pendingChecked (withHostSide host lastRead s) = withHostSide host lastRead (pendingChecked s) := by
  change s.rqbuf.head?.elim _ _ = withHostSide host lastRead (s.rqbuf.head?.elim _ _)
  cases s.rqbuf.head? with
  | none => rfl
  | some op => exact accept_withHostSide host lastRead s op

theorem readView_withHostSide :
    readView (withHostSide host lastRead s) = withHostSide host lastRead (readView s) := by
  rw [readView_eq, readView_eq s, pendingChecked_withHostSide, apply_ite (withHostSide host lastRead)]
  rfl

/-- What a read finds does not depend on the host's side. -/
theorem readRegister_withHostSide (a : RegAddr) :
    readRegister a (withHostSide host lastRead s) = readRegister a s := by
  rw [readRegister, readView_withHostSide]
  rfl

theorem observation_withHostSide : (withHostSide host lastRead s).observation = s.observation := by
  simp only [State.observation, readRegister_withHostSide]
  rfl

end

/-! Reads while BUSY. -/

/-- With a request pending, a read finds its acceptance check done and free values in the rest (R166, log 3). -/
theorem readView_pending {s : State} {i : Instr} (busy : s.status.busy = true) (hd : decode s.rqbuf = .ok (i, [])) :
    readView s = withFreeValues s.draws (accept i.opcode s) := by
  obtain ⟨wf, bytes⟩ := encode_of_decode hd
  rw [readView_eq, if_pos busy, pendingChecked, ← bytes, (encode_length i wf).1]
  rfl

/-- What a read of the exact registers finds while BUSY (R166). -/
theorem readView_pending_exact {s t : State} {i : Instr} (busy : s.status.busy = true)
    (hd : decode s.rqbuf = .ok (i, [])) (he : exec i s = .next t) :
    (readView s).status.busy = true ∧ (readView s).status.initDone = s.status.initDone ∧
      (readView s).cidx = s.cidx ∧ errorRecord (readView s) = errorRecord t := by
  obtain ⟨stillBusy, initDone, cidx⟩ := accept_keeps i.opcode s
  rw [readView_pending busy hd]
  exact ⟨stillBusy.trans busy, initDone, cidx, (errorRecord_exec (encode_of_decode hd).1 he).symm⟩

theorem hostRead_busy {s : State} (busy : s.status.busy = true) (a : RegAddr) :
    hostRead a s = { s with lastRead := some (a, readRegister a s), draws := s.draws + 1 } := by
  rw [hostRead, if_pos busy]

/-- Settles O40: each exact bit is a bit of the registers as the read finds them, and the read writes the host's record
and takes one draw. -/
theorem readWhileBusy : Obligations.ReadWhileBusy := by
  intro s t i busy hd he
  obtain ⟨stillBusy, initDone, cidx, errors⟩ := readView_pending_exact busy hd he
  obtain ⟨preinit, reinit, badop, errcode⟩ := (errorRecord_eq_iff _ _).mp errors
  have bit := statusByte_getLsbD (readView s)
  refine ⟨(bit 0).trans stillBusy, (bit 1).trans initDone, (bit 3).trans preinit, (bit 4).trans reinit,
    (bit 5).trans badop, bit 7, ?_, ?_, ?_, errcode, fun a rest hr hh => ?_⟩
  · change ctrlByte (readView s) = _
    rw [ctrlByte, cidx]
  · exact (BitVec.toNat_setWidth_of_le (by decide)).trans_lt (readView s).curRow.isLt
  · exact (BitVec.toNat_setWidth_of_le (by decide)).trans_lt (readView s).curCol.isLt
  · have found : readRegister a { s with host := rest } = readRegister a s :=
      readRegister_withHostSide rest s.lastRead s a
    rw [step_read hr hh, hostRead_busy (s := { s with host := rest }) busy, found]

/-! The end of a run. -/

theorem finished_iff (s : State) : s.finished = true ↔
    (∀ a ∈ s.host, a.sendsByte = false) ∧ s.status.busy = false ∧ s.rqbuf = [] := by
  simp [State.finished, and_assoc]

/-- A run that has ended stays ended whatever the host does next and last read (R172). -/
theorem finished_tail {s : State} (h : s.finished = true) (lastRead : Option (RegAddr × Byte)) :
    (withHostSide s.host.tail lastRead s).finished = true := by
  obtain ⟨noByte, idle⟩ := (finished_iff s).mp h
  exact (finished_iff _).mpr ⟨fun a ha => noByte a (List.mem_of_mem_tail ha), idle⟩

/-- A run that has ended only has reads, waits and redriving of `RESET_N` left to do (R172). -/
theorem step_finished {s : State} (hr : s.resetN = true) (h : s.finished = true)
    (notReset : ∀ rest, s.host ≠ .driveResetN false :: rest) :
    ∃ lastRead, step s = .next (withHostSide s.host.tail lastRead s) := by
  obtain ⟨noByte, hb, -⟩ := (finished_iff s).mp h
  rcases hh : s.host with _ | ⟨a, rest⟩
  · rw [List.tail_nil, ← hh]
    exact ⟨s.lastRead, step_wait hr hb hh⟩
  · rw [List.tail_cons]
    cases a with
    | read a => exact ⟨_, (step_read hr hh).trans (congrArg _ (hostRead_idle (s := { s with host := rest }) hb a))⟩
    | awaitReady => exact ⟨s.lastRead, step_await hr hb hh⟩
    | send b =>
      have noSend := noByte (.send b) (hh ▸ List.mem_cons_self)
      cases noSend
    | driveResetN level =>
      cases level with
      | true => exact ⟨s.lastRead, step_drive hr hh⟩
      | false => exact absurd hh (notReset rest)

/-- Settles O14: an idle block with nothing to do waits, and what an ended run still does is seen by neither the wire
nor the registers. -/
theorem partialRequestWaits : Obligations.PartialRequestWaits := by
  refine ⟨fun s => step_wait, fun s hr h notReset => ?_⟩
  obtain ⟨lastRead, stepped⟩ := step_finished hr h notReset
  exact ⟨_, stepped, finished_tail h lastRead, observation_withHostSide _ lastRead s, rfl⟩

end Sys2Proof.Proofs
end
